-- ==== Sys2Proof/Word.lean ====
section
/-! DEFINITION. The widths of the hardware: lanes and operand words (00_scope.md R5, R6), bytes (R12), the command
word and the response word (R10). -/

namespace Sys2Proof

/-- A lane, a key word, the pending buffer or a digest word: 64 bits, unsigned (00_scope.md R5, R6, R11). -/
abbrev Word := BitVec 64

/-- One byte of the input stream or of a serialized digest (00_scope.md R12). -/
abbrev Byte := BitVec 8

/-- The byte counter, `CNT_W = 64` bits, wrapping modulo `2^64` (00_scope.md R8; DESIGN CHOICE, log 7). -/
abbrev Count := BitVec 64

/-- The command word `CMD`, `CMD_W = 136` bits (30_encoding.md R71). -/
abbrev CmdWord := BitVec 136

/-- The response word `RSP`, `RSP_W = 132` bits (30_encoding.md R78). -/
abbrev RspWord := BitVec 132

end Sys2Proof
end

