-- ==== Sys2Proof/Syntax.lean ====
section
/-! DEFINITION. The command set: the four commands that have an encoding (30_encoding.md R70, opcode_table.json), and
the lines of the spec's assembler syntax with its three pseudo-instructions (R79, R80). -/

namespace Sys2Proof

/-- The commands, one constructor for each row of opcode_table.json (30_encoding.md R70, R77). -/
inductive Instr where
  /-- `CONSTRUCT k0, k1`: start an instance with a 128-bit key (42_streaming_hasher.md R130). -/
  | construct (k0 k1 : Word)
  /-- `ABSORB n, b0 ... b(n-1)`: absorb 0 to 8 bytes, given in stream order (30_encoding.md R74). -/
  | absorb (bytes : List Byte)
  /-- `DIGEST64`: finalize and answer the 64-bit digest (43_finalization_digest.md R162). -/
  | digest64
  /-- `DIGEST128`: finalize and answer the 128-bit digest (43_finalization_digest.md R163). -/
  | digest128
deriving DecidableEq, Repr

/-- One line of a program in the syntax of 30_encoding.md R79: a command, the reset event, or a pseudo-instruction
of R80. -/
inductive AsmLine where
  | command (i : Instr)
  | reset
  | update (bytes : List Byte)
  | hash64 (bytes : List Byte)
  | hash128 (bytes : List Byte)
deriving DecidableEq, Repr

end Sys2Proof
end

