-- ==== Sys2Proof/WellFormed.lean ====
section
/-! DEFINITION. Which commands have an encoding: an ABSORB carries at most `BEAT_MAX = 8` bytes (00_scope.md R10,
30_encoding.md R72, R74). Every other operand is a whole 64-bit word and always fits. -/

namespace Sys2Proof

/-- `BEAT_MAX`: the largest number of bytes one ABSORB carries (00_scope.md R10). -/
def beatMax : Nat := 8

/-- The command can be encoded: the bytes of an ABSORB fit one beat (30_encoding.md R72, R74). -/
def Instr.wf : Instr → Bool
  | .construct _ _ => true
  | .absorb bytes => decide (bytes.length ≤ beatMax)
  | .digest64 => true
  | .digest128 => true

/-- A line assembles to well-formed commands; pseudo-instructions take byte sequences of any length (R80). -/
def AsmLine.wf : AsmLine → Bool
  | .command i => i.wf
  | .reset => true
  | .update _ => true
  | .hash64 _ => true
  | .hash128 _ => true

end Sys2Proof
end

