-- ==== Sys2Proof/Decode.lean ====
section
/-! DEFINITION. The byte view of a word (00_scope.md R12), the fields of the command word (30_encoding.md R71), the
decoder, total on 136-bit words and rejecting by name (R75 to R77), the opcode table's mask and match rows (R75), and
the encoder (R72 to R74). -/

namespace Sys2Proof

/-! ### Bytes of a word (00_scope.md R12) -/

/-- `byte(w, i) = w[8*i+7 : 8*i]`: byte index 0 is the least significant (00_scope.md R12). -/
def byteAt (w : Word) (i : Nat) : Byte := w.extractLsb' (8 * i) 8

/-- `setbyte(w, i, b)`: `w` with the 8 bits of byte `i` replaced by `b` (00_scope.md R12). -/
def setByte (w : Word) (i : Nat) (b : Byte) : Word :=
  (w &&& ~~~((0xff : Word) <<< (8 * i))) ||| (b.setWidth 64 <<< (8 * i))

/-- `le64(b0, b1, ...) = b0 + b1*2^8 + ...`: the first byte is the least significant (00_scope.md R12, 20_memory.md
R51). -/
def le64 : List Byte → Word
  | [] => 0
  | b :: bs => b.setWidth 64 + (le64 bs <<< 8)

/-- `bytes_le(w)`: the eight bytes of a word, least significant first (00_scope.md R12). -/
def bytesLe (w : Word) : List Byte :=
  [byteAt w 0, byteAt w 1, byteAt w 2, byteAt w 3, byteAt w 4, byteAt w 5, byteAt w 6, byteAt w 7]

/-! ### The fields of the command word (30_encoding.md R71) -/

/-- `op = CMD[3:0]`. -/
def CmdWord.op (w : CmdWord) : BitVec 4 := w.extractLsb' 0 4

/-- `len = CMD[7:4]`. -/
def CmdWord.len (w : CmdWord) : BitVec 4 := w.extractLsb' 4 4

/-- `a = CMD[71:8]`. -/
def CmdWord.a (w : CmdWord) : Word := w.extractLsb' 8 64

/-- `b = CMD[135:72]`. -/
def CmdWord.b (w : CmdWord) : Word := w.extractLsb' 72 64

/-- The word with the given fields, least significant field last (30_encoding.md R71). -/
def CmdWord.ofFields (op len : BitVec 4) (a b : Word) : CmdWord := b ++ a ++ len ++ op

/-! ### The decoder (30_encoding.md R75 to R77) -/

/-- Why a command word is illegal, one name for each condition of 30_encoding.md R76. -/
inductive Illegal where
  /-- `op` is 0 or 5 to 15. -/
  | reservedOpcode
  /-- `op == 1` and `len != 0`. -/
  | constructLenNotZero
  /-- `op == 2` and `len > 8`. -/
  | absorbLenAboveEight
  /-- `op == 2` and `b != 0`. -/
  | absorbBNotZero
  /-- `op` is 3 or 4 and one of `len`, `a`, `b` is not zero. -/
  | digestOperandNotZero
deriving DecidableEq, Repr

/-- What a command word decodes to (30_encoding.md R77): a command, or Illegal, here with its reason. -/
inductive Decoded where
  | command (i : Instr)
  | illegal (why : Illegal)
deriving DecidableEq, Repr

/-- The byte sequence of an ABSORB: the first `n` bytes of the data word, least significant first; bytes at index `n`
and above are ignored (30_encoding.md R74). -/
def beatBytes (a : Word) (n : Nat) : List Byte := (bytesLe a).take n

/-- Format N: every field but the opcode must be zero (30_encoding.md R72). -/
def decodeNoOperand (w : CmdWord) (i : Instr) : Decoded :=
  if w.len = 0 ∧ w.a = 0 ∧ w.b = 0 then .command i else .illegal .digestOperandNotZero

/-- Decoding: first read `op`, then apply the row's condition (30_encoding.md R75, R76, R77). It does not look at the
state. -/
def decode (w : CmdWord) : Decoded :=
  match w.op.toNat with
  | 1 => if w.len = 0 then .command (.construct w.a w.b) else .illegal .constructLenNotZero
  | 2 =>
    if 8 < w.len.toNat then .illegal .absorbLenAboveEight
    else if w.b = 0 then .command (.absorb (beatBytes w.a w.len.toNat))
    else .illegal .absorbBNotZero
  | 3 => decodeNoOperand w .digest64
  | 4 => decodeNoOperand w .digest128
  | _ => .illegal .reservedOpcode

/-- The command word that stands for the `nbits` low bits of `w` (every bit above them is 0); the block knows one
width only, 136 bits (30_encoding.md R71; log 14). -/
def tableWord (nbits w : Nat) : CmdWord := BitVec.ofNat 136 (w % 2 ^ nbits)

/-- The command the decoder reads from a word numbered as opcode_table.json numbers it (bit 0 the least significant
bit of the one 136-bit word); none where the decoder refuses. -/
def decodeTableWord (nbits w : Nat) : Option Instr :=
  match decode (tableWord nbits w) with
  | .command i => some i
  | .illegal _ => none

/-! ### The opcode table as data (30_encoding.md R75) -/

/-- One row of the opcode map: a word `w` selects it when `(w AND mask) == match` and its extra condition holds. -/
structure OpcodeRow where
  mnemonic : String
  matchBits : CmdWord
  maskBits : CmdWord
  /-- The largest legal `len` where the mask leaves `len` free: the extra condition of the ABSORB row. -/
  maxLen : Nat
deriving DecidableEq, Repr

/-- The four rows of 30_encoding.md R75. -/
def opcodeRows : List OpcodeRow :=
  [ { mnemonic := "CONSTRUCT", matchBits := 0x01, maskBits := 0xff, maxLen := 15 },
    { mnemonic := "ABSORB", matchBits := 0x02, maskBits := 0xffffffffffffffff00000000000000000f, maxLen := 8 },
    { mnemonic := "DIGEST64", matchBits := 0x03, maskBits := 0xffffffffffffffffffffffffffffffffff, maxLen := 15 },
    { mnemonic := "DIGEST128", matchBits := 0x04, maskBits := 0xffffffffffffffffffffffffffffffffff, maxLen := 15 } ]

/-- The word selects the row (30_encoding.md R75). -/
def OpcodeRow.selects (r : OpcodeRow) (w : CmdWord) : Bool :=
  (w &&& r.maskBits) == r.matchBits && decide (w.len.toNat ≤ r.maxLen)

/-- The row's name for a command (30_encoding.md R70). -/
def Instr.mnemonic : Instr → String
  | .construct _ _ => "CONSTRUCT"
  | .absorb _ => "ABSORB"
  | .digest64 => "DIGEST64"
  | .digest128 => "DIGEST128"

/-! ### The encoder (30_encoding.md R72 to R75) -/

/-- The opcode of a command (30_encoding.md R75). -/
def Instr.opcode : Instr → BitVec 4
  | .construct _ _ => 1
  | .absorb _ => 2
  | .digest64 => 3
  | .digest128 => 4

/-- The word of a well-formed command; every "must be 0" field and every ignored data byte is zero (30_encoding.md
R72, R79). -/
def encode : Instr → CmdWord
  | .construct k0 k1 => CmdWord.ofFields 1 0 k0 k1
  | .absorb bytes => CmdWord.ofFields 2 (BitVec.ofNat 4 bytes.length) (le64 bytes) 0
  | .digest64 => CmdWord.ofFields 3 0 0 0
  | .digest128 => CmdWord.ofFields 4 0 0 0

end Sys2Proof
end

