-- ==== Sys2Proof/Config.lean ====
section
/-! DEFINITION. What an implementation fixes (the four initialization constants, the parameters a block is built with)
and the one free value of the model (the contents of a register after reset). The constants' default VALUES, the round
counts and the finalization constant stand in Machine/Params.lean. -/

namespace Sys2Proof

/-- The parameters `C0..C3`: four 64-bit constants XORed with the key at CONSTRUCT (00_scope.md R9). Each block carries
its own in `State.consts`, so that a statement over every state quantifies over them. -/
structure Config.InitConstants where
  c0 : Word
  c1 : Word
  c2 : Word
  c3 : Word
deriving DecidableEq, Repr

/-- The unspecified contents a register takes at a reset, one value for each draw (10_state.md R37: "arbitrary values;
it must not assume zero"; 70_reset_and_hazards.md R230). A FREE VALUE: it has no body, so that nothing can be proved
of it (DESIGN CHOICE, log 2). -/
opaque Config.unspecified : Nat → Word

end Sys2Proof
end

