-- ==== Sys2Proof/Machine/Params.lean ====
section
/-! DEFINITION. The parameters of 00_scope.md: the default initialization constants (R9), the round counts and the
finalization constant (R7). -/

namespace Sys2Proof.Machine

/-- The default values of `C0..C3` (00_scope.md R9). PRESUMED: the spec takes them from general knowledge, not from
its source (93_implementation_defined.md G1; log 1). Only `State.reset` takes them; every meaning takes the constants
of the block it runs on. -/
def initConstants : Config.InitConstants where
  c0 := 0x736f6d6570736575
  c1 := 0x646f72616e646f6d
  c2 := 0x6c7967656e657261
  c3 := 0x7465646279746573

/-- `FIN_CONST`, XORed into lane 2 at finalization (00_scope.md R7). -/
def finConst : Word := 0x00000000000000ff

/-- `C_ROUNDS`: applications of the round function per injected word (00_scope.md R7, 40_round_function.md R105). -/
def cRounds : Nat := 2

/-- `D_ROUNDS`: applications after the finalization constant (00_scope.md R7, 40_round_function.md R105). -/
def dRounds : Nat := 4

end Sys2Proof.Machine
end

