-- ==== Sys2Proof/Machine/State.lean ====
section
/-! DEFINITION. The state of one block (10_state.md) with the parameters it is built with (00_scope.md R9), the host's
side of the port (the events still to come and the responses given), and the state after reset (R38). State is plain
data. -/

namespace Sys2Proof.Machine

/-- The four lanes, the general registers (10_state.md R22). -/
structure Lanes where
  v0 : Word
  v1 : Word
  v2 : Word
  v3 : Word
deriving DecidableEq, Repr

/-- The life-cycle register (10_state.md R24). Its 2-bit codes are `Phase.code` in Flags.lean. -/
inductive Phase where
  /-- No instance: nothing constructed since reset. -/
  | empty
  /-- An instance exists and accepts ABSORB and one digest command. -/
  | absorbing
  /-- Finalize has run; the instance is spent. -/
  | finalized
  /-- A contract violation or an illegal command occurred; sticky until reset. -/
  | faulted
deriving DecidableEq, Repr

/-- The cause of a FAULT response (60_exceptions.md R202). Its numbers are `Cause.code` in Operands.lean. -/
inductive Cause where
  | updateAfterFinalize
  | finalizeTwice
  | noInstance
  | illegalCommand
  | faulted
deriving DecidableEq, Repr

/-- What the block returns for one command (30_encoding.md R78). Its 132-bit word is `Response.word`. -/
inductive Response where
  | done
  | digest64 (d : Word)
  | digest128 (lo hi : Word)
  | fault (c : Cause)
deriving DecidableEq, Repr

/-- What the host does next: present a command word, or assert reset between commands (70_reset_and_hazards.md R230,
R236). -/
inductive Event where
  | command (w : CmdWord)
  | reset
deriving DecidableEq, Repr

/-- The state of one block and of its port. -/
structure State where
  /-- The life-cycle register (10_state.md R24). -/
  phase : Phase
  /-- `v0..v3` (10_state.md R22). -/
  lanes : Lanes
  /-- `byte_count` (10_state.md R26). -/
  cnt : Count
  /-- The pending buffer (10_state.md R29). -/
  pending : Word
  /-- The host's events, the next one first: "an input list consumed head first" (10_state.md R21; log 4). -/
  inbox : List Event
  /-- The responses given so far, the oldest first (70_reset_and_hazards.md R238; log 5). -/
  responses : List Response
  /-- How many unspecified values have been drawn (the model's own field; DESIGN CHOICE, log 3). -/
  draws : Nat
  /-- `C0..C3`, the parameters this block is built with (00_scope.md R9). Configuration, not a register: no step writes
  it and CONSTRUCT alone reads it (the model's own field; DESIGN CHOICE, log 16). -/
  consts : Config.InitConstants
deriving DecidableEq, Repr

/-- Why a step stops with a fault: never. The spec's faults are responses after which the machine goes on
(60_exceptions.md R203, R204), and every command has exactly one next state (70_reset_and_hazards.md R243), so no
constructor is left (log 10). -/
inductive Fault where
deriving DecidableEq, Repr

/-- Why a step is refused. -/
inductive Refusal where
  /-- Raised by an arm of `exec` whose instruction has no meaning yet: no arm of this model. Safe. -/
  | notModelled (mnemonic : String)
deriving DecidableEq, Repr

/-- The block right after reset (10_state.md R38): EMPTY; lanes, counter and buffer unspecified, each a free value
(R37; DESIGN CHOICE, log 2); nothing presented, nothing answered; the constants at their defaults (00_scope.md R9;
PRESUMED, log 1). -/
def State.reset : State where
  phase := .empty
  lanes := ⟨Config.unspecified 0, Config.unspecified 1, Config.unspecified 2, Config.unspecified 3⟩
  cnt := Config.unspecified 4
  pending := Config.unspecified 5
  inbox := []
  responses := []
  draws := 6
  consts := initConstants

end Sys2Proof.Machine
end

