-- ==== Sys2Proof/Machine/Ops.lean ====
section
/-! DEFINITION. The named operations every command shares: the lane arithmetic, SIPROUND, INJECT, UPDATE, FINALIZE,
answering, TAKING A FAULT as one operation, the legality check, the reset event, and taking the next host event. -/

namespace Sys2Proof.Machine

/-! ### Register writes -/

/-- `V <- ...`: write the four lanes (10_state.md R22). -/
def State.setLanes (s : State) (v : Lanes) : State := { s with lanes := v }

/-- `cnt <- n` (10_state.md R26). -/
def State.setCnt (s : State) (n : Count) : State := { s with cnt := n }

/-- `pending <- w` (10_state.md R29). -/
def State.setPending (s : State) (w : Word) : State := { s with pending := w }

/-- `phase <- p` (10_state.md R24). -/
def State.setPhase (s : State) (p : Phase) : State := { s with phase := p }

/-- `respond r`: end the command and hand `r` to the host, after every earlier response (30_encoding.md R78,
20_memory.md R59). -/
def State.respond (s : State) (r : Response) : State := { s with responses := s.responses ++ [r] }

/-- The same block built with other initialization constants (00_scope.md R9; no command does this, log 16). -/
def State.withConstants (s : State) (c : Config.InitConstants) : State := { s with consts := c }

/-- `cnt mod 8`: the byte index in `pending` at which the next byte goes (10_state.md R26, R31). -/
def State.fill (s : State) : Nat := s.cnt.toNat % 8

/-! ### Lane arithmetic (40_round_function.md R100 to R102) -/

/-- `a +64 b = (a + b) mod 2^64`: it wraps silently and writes no flag (40_round_function.md R100). -/
def add64 (a b : Word) : Word := a + b

/-- `rotl64(x, n) = ((x * 2^n) mod 2^64) + (x div 2^(64-n))` (40_round_function.md R101, 00_scope.md R13). -/
def rotl64 (x : Word) (n : Nat) : Word := (x <<< n) + (x >>> (64 - n))

/-- `a ^ b`, bitwise exclusive-or (40_round_function.md R102). -/
def xor64 (a b : Word) : Word := a ^^^ b

/-! ### SIPROUND and INJECT -/

/-- SIPROUND: fourteen assignments in this order, each seeing the results of those before it (40_round_function.md
R103). -/
def sipRound (v : Lanes) : Lanes :=
  let v := { v with v0 := add64 v.v0 v.v1 }
  let v := { v with v1 := rotl64 v.v1 13 }
  let v := { v with v1 := xor64 v.v1 v.v0 }
  let v := { v with v0 := rotl64 v.v0 32 }
  let v := { v with v2 := add64 v.v2 v.v3 }
  let v := { v with v3 := rotl64 v.v3 16 }
  let v := { v with v3 := xor64 v.v3 v.v2 }
  let v := { v with v0 := add64 v.v0 v.v3 }
  let v := { v with v3 := rotl64 v.v3 21 }
  let v := { v with v3 := xor64 v.v3 v.v0 }
  let v := { v with v2 := add64 v.v2 v.v1 }
  let v := { v with v1 := rotl64 v.v1 17 }
  let v := { v with v1 := xor64 v.v1 v.v2 }
  { v with v2 := rotl64 v.v2 32 }

/-- `SIPROUND^k`: `k` successive applications (40_round_function.md R105). -/
def sipRounds : Nat → Lanes → Lanes
  | 0, v => v
  | k + 1, v => sipRounds k (sipRound v)

/-- INJECT(m): XOR into lane 3, two rounds, XOR the same word into lane 0 (41_block_mixer.md R120). -/
def inject (v : Lanes) (m : Word) : Lanes :=
  let v := { v with v3 := xor64 v.v3 m }
  let v := sipRounds cRounds v
  { v with v0 := xor64 v.v0 m }

/-- `INJECT(pending)`: absorb the word the pending buffer holds (42_streaming_hasher.md R133, 43 R160). -/
def State.injectPending (s : State) : State := s.setLanes (inject s.lanes s.pending)

/-! ### UPDATE (42_streaming_hasher.md R133) -/

/-- `pending <- setbyte(pending, cnt mod 8, b); cnt <- cnt + 1`: the body of the carry loop (R133 step 1). -/
def State.appendByte (s : State) (b : Byte) : State :=
  (s.setPending (setByte s.pending s.fill b)).setCnt (s.cnt + 1)

/-- The carry loop, while `cnt mod 8 != 0` and input is left; answers the state and the input not consumed
(R133 step 1). -/
def carryLoop : List Byte → State → State × List Byte
  | [], s => (s, [])
  | b :: bs, s => if s.fill ≠ 0 then carryLoop bs (s.appendByte b) else (s, b :: bs)

/-- The stride loop: while eight bytes are left, load them as one word and inject it; answers the state and the 0 to
7 bytes left (R133 step 3). -/
def strideLoop : List Byte → State → State × List Byte
  | b0 :: b1 :: b2 :: b3 :: b4 :: b5 :: b6 :: b7 :: rest, s =>
    strideLoop rest (s.setPending (le64 [b0, b1, b2, b3, b4, b5, b6, b7])).injectPending
  | tail, s => (s, tail)

/-- The tail copy: the bytes go to the byte indices from `j` upward of the word (R133 step 4). -/
def copyTail : Nat → List Byte → Word → Word
  | _, [], w => w
  | j, b :: bs, w => copyTail (j + 1) bs (setByte w j b)

/-- Steps 3 and 4: count the rest of the input, take whole words straight from it, keep the trailing bytes in a
zero-filled buffer (R133). -/
def absorbWords (bytes : List Byte) (s : State) : State :=
  let r := strideLoop bytes (s.setCnt (s.cnt + BitVec.ofNat 64 bytes.length))
  r.1.setPending (copyTail 0 r.2 0)

/-- UPDATE(B), for a byte sequence of any length; the response is its caller's (42_streaming_hasher.md R133). -/
def update (bytes : List Byte) (s : State) : State :=
  if s.fill ≠ 0 then
    let r := carryLoop bytes s
    if r.1.fill ≠ 0 then r.1 else absorbWords r.2 r.1.injectPending
  else absorbWords bytes s

/-! ### CONSTRUCT's lanes, FINALIZE and the digests -/

/-- The lanes of a fresh instance: lanes 0 and 2 get `k0`, lanes 1 and 3 get `k1` (42_streaming_hasher.md R130). -/
def keyedLanes (c : Config.InitConstants) (k0 k1 : Word) : Lanes :=
  ⟨xor64 c.c0 k0, xor64 c.c1 k1, xor64 c.c2 k0, xor64 c.c3 k1⟩

/-- The lanes after the finalization constant and the last four rounds (43_finalization_digest.md R160). -/
def finishLanes (v : Lanes) : Lanes := sipRounds dRounds { v with v2 := xor64 v.v2 finConst }

/-- FINALIZE: the length byte into byte 7 of `pending`, inject it, the constant into lane 2, four rounds, phase
FINALIZED (43_finalization_digest.md R160). -/
def finalize (s : State) : State :=
  let s := s.setPending (setByte s.pending 7 (s.cnt.setWidth 8))
  let s := s.injectPending
  let s := s.setLanes (finishLanes s.lanes)
  s.setPhase .finalized

/-- The 64-bit digest of finalized lanes (43_finalization_digest.md R162). -/
def digest64Of (v : Lanes) : Word := xor64 (xor64 (xor64 v.v0 v.v1) v.v2) v.v3

/-- The low half of the 128-bit digest (43_finalization_digest.md R163). -/
def digestLoOf (v : Lanes) : Word := xor64 v.v0 v.v1

/-- The high half of the 128-bit digest (43_finalization_digest.md R163). -/
def digestHiOf (v : Lanes) : Word := xor64 v.v2 v.v3

/-! ### Faults (60_exceptions.md) -/

/-- TAKING A FAULT: `raise Fault(c)` does exactly this and nothing more: `phase <- FAULTED`, `respond FAULT(c)`
(60_exceptions.md R203). There is no return from it but the reset event (R205). -/
def State.raise (s : State) (c : Cause) : State := (s.setPhase .faulted).respond (.fault c)

/-- The legality check at the start of every command, in the order of 60_exceptions.md R201; `none` is legal. -/
def legality (p : Phase) (d : Decoded) : Option Cause :=
  if p = .faulted then some .faulted
  else match d with
    | .illegal _ => some .illegalCommand
    | .command (.construct _ _) => none
    | .command (.absorb _) =>
      if p = .empty then some .noInstance else if p = .finalized then some .updateAfterFinalize else none
    | .command .digest64 =>
      if p = .empty then some .noInstance else if p = .finalized then some .finalizeTwice else none
    | .command .digest128 =>
      if p = .empty then some .noInstance else if p = .finalized then some .finalizeTwice else none

/-- One command: the legality check, then either the fault alone, so that the command's own effect does not run even
partly, or that effect (60_exceptions.md R201, R203). -/
def guarded (d : Decoded) (effect : State → State) (s : State) : Host.Outcome State Fault Refusal :=
  match legality s.phase d with
  | some c => .next (s.raise c)
  | none => .next (effect s)

/-- A word that decodes to Illegal: it has no effect of its own, so the check's fault is all it does
(30_encoding.md R76, 60_exceptions.md R201). -/
def illegalWord (why : Illegal) (s : State) : Host.Outcome State Fault Refusal :=
  guarded (.illegal why) id s

/-! ### Reset and the host's events -/

/-- The reset event: `phase <- EMPTY`; lanes, counter and buffer become unspecified, each a fresh free value; no
response (70_reset_and_hazards.md R230; DESIGN CHOICE, log 2, log 3). -/
def resetEvent (s : State) : State :=
  { s with
    phase := .empty
    lanes := ⟨Config.unspecified s.draws, Config.unspecified (s.draws + 1), Config.unspecified (s.draws + 2),
      Config.unspecified (s.draws + 3)⟩
    cnt := Config.unspecified (s.draws + 4)
    pending := Config.unspecified (s.draws + 5)
    draws := s.draws + 6 }

/-- The events the host has yet to present (10_state.md R21). -/
def State.withInbox (s : State) (q : List Event) : State := { s with inbox := q }

/-- The next event of the host and the state with it consumed; none when nothing is presented (10_state.md R21:
"consumed head first"). -/
def State.takeEvent (s : State) : Option (Event × State) :=
  match s.inbox with
  | [] => none
  | e :: q => some (e, s.withInbox q)

/-- The host presents these events next, before whatever else it has to present. -/
def State.present (s : State) (es : List Event) : State := s.withInbox (es ++ s.inbox)

end Sys2Proof.Machine
end

