-- ==== Sys2Proof/Machine/Absorb.lean ====
section
/-! DEFINITION. The meaning of ABSORB (42_streaming_hasher.md R135). -/

namespace Sys2Proof.Machine

/-- ABSORB's own effect: exactly UPDATE of its bytes, then DONE (42_streaming_hasher.md R135). -/
def absorb (bytes : List Byte) (s : State) : State := (update bytes s).respond .done

/-- ABSORB n, b0 ... b(n-1): legal only in ABSORBING (42_streaming_hasher.md R135, 60_exceptions.md R201). A beat has
at most 8 bytes; the meaning on a longer list, which no word decodes to, is UPDATE's (DESIGN CHOICE, log 13). -/
def execAbsorb (bytes : List Byte) (s : State) : Host.Outcome State Fault Refusal :=
  guarded (.command (.absorb bytes)) (absorb bytes) s

end Sys2Proof.Machine
end

