-- ==== Sys2Proof/Machine/Construct.lean ====
section
/-! DEFINITION. The meaning of CONSTRUCT (42_streaming_hasher.md R130, R131). -/

namespace Sys2Proof.Machine

/-- CONSTRUCT's own effect: a fresh instance from the key and the block's constants, whatever else the block held
(42_streaming_hasher.md R130, R131; 00_scope.md R9). -/
def construct (k0 k1 : Word) (s : State) : State :=
  let s := s.setLanes (keyedLanes s.consts k0 k1)
  let s := s.setCnt 0
  let s := s.setPending 0
  let s := s.setPhase .absorbing
  s.respond .done

/-- CONSTRUCT k0, k1: legal in every phase but FAULTED (42_streaming_hasher.md R130, 60_exceptions.md R201). -/
def execConstruct (k0 k1 : Word) (s : State) : Host.Outcome State Fault Refusal :=
  guarded (.command (.construct k0 k1)) (construct k0 k1) s

end Sys2Proof.Machine
end

