-- ==== Sys2Proof/Machine/Digest.lean ====
section
/-! DEFINITION. The meanings of DIGEST64 and DIGEST128 (43_finalization_digest.md R162, R163). -/

namespace Sys2Proof.Machine

/-- DIGEST64's own effect: FINALIZE, then the XOR of the four lanes, read after it (43_finalization_digest.md R162). -/
def digest64 (s : State) : State :=
  let s := finalize s
  s.respond (.digest64 (digest64Of s.lanes))

/-- DIGEST64: legal only in ABSORBING (43_finalization_digest.md R162, 60_exceptions.md R201). -/
def execDigest64 (s : State) : Host.Outcome State Fault Refusal :=
  guarded (.command .digest64) digest64 s

/-- DIGEST128's own effect: FINALIZE, then the two halves, read after it (43_finalization_digest.md R163). -/
def digest128 (s : State) : State :=
  let s := finalize s
  s.respond (.digest128 (digestLoOf s.lanes) (digestHiOf s.lanes))

/-- DIGEST128: legal only in ABSORBING (43_finalization_digest.md R163, 60_exceptions.md R201). -/
def execDigest128 (s : State) : Host.Outcome State Fault Refusal :=
  guarded (.command .digest128) digest128 s

end Sys2Proof.Machine
end

