-- ==== Sys2Proof/Machine/Dispatch.lean ====
section
/-! DEFINITION. The dispatch: one arm for each constructor of Instr, each one call of its meaning. -/

namespace Sys2Proof.Machine

def exec (i : Instr) (s : State) : Host.Outcome State Fault Refusal :=
  match i with
  | .construct k0 k1 => Sys2Proof.Machine.execConstruct k0 k1 s
  | .absorb bytes => Sys2Proof.Machine.execAbsorb bytes s
  | .digest64 => Sys2Proof.Machine.execDigest64 s
  | .digest128 => Sys2Proof.Machine.execDigest128 s

end Sys2Proof.Machine
end

