-- ==== Sys2Proof/Machine/Step.lean ====
section
/-! DEFINITION. One step: the block takes the host's next event (10_state.md R21). A command word is decoded and
executed, an illegal word faults, a reset event resets, and with nothing presented the block waits. -/

namespace Sys2Proof.Machine

/-- One step of the block. The host's events are consumed head first (10_state.md R21), each whole before the next
(20_memory.md R58, R59). With none left the block waits: the state is the one it was (60_exceptions.md R215,
70_reset_and_hazards.md R236, R238; DESIGN CHOICE, log 6). -/
def step (s : State) : Host.Outcome State Fault Refusal :=
  match s.takeEvent with
  | none => .next s
  | some (.reset, s) => .next (resetEvent s)
  | some (.command w, s) =>
    match decode w with
    | .command i => exec i s
    | .illegal why => illegalWord why s

/-- The same state with this command word as the next event the host presents (log 9). -/
def State.withFetchWord (s : State) (nbits w : Nat) : State := s.present [.command (tableWord nbits w)]

end Sys2Proof.Machine
end

