-- ==== Sys2Proof/Machine/Blocks.lean ====
section
/-! DEFINITION. Several blocks: the product of their states, each stepped only by its own commands (20_memory.md R62,
60_exceptions.md R214). -/

namespace Sys2Proof.Machine

/-- Block `i` of a system takes one step; nothing else moves (20_memory.md R62). -/
def stepBlock {n : Nat} (blocks : Vector State n) (i : Fin n) : Host.Outcome (Vector State n) Fault Refusal :=
  match step blocks[i] with
  | .next t => .next (blocks.set i t)
  | .fault r => .fault r
  | .refused r => .refused r

end Sys2Proof.Machine
end

