-- ==== Sys2Proof/Machine/Flags.lean ====
section
/-! DEFINITION. The life-cycle register's codes (10_state.md R24) and the only flag of the hardware, `finalized`
(R25). No arithmetic operation writes a flag (R25, 40_round_function.md R100 to R102). -/

namespace Sys2Proof.Machine

/-- The 2-bit encoding of `phase` (10_state.md R24). -/
def Phase.code : Phase → BitVec 2
  | .empty => 0
  | .absorbing => 1
  | .finalized => 2
  | .faulted => 3

/-- The one-shot guard: `finalized = (phase == FINALIZED)` (10_state.md R25; log 8). -/
def State.finalized (s : State) : Bool := s.phase == .finalized

end Sys2Proof.Machine
end

