-- ==== Sys2Proof/Machine/Operands.lean ====
section
/-! DEFINITION. The data forms at the port: cause codes (60_exceptions.md R202), the response word (30_encoding.md
R78) and the byte form of the digests (20_memory.md R52). -/

namespace Sys2Proof.Machine

/-- The cause codes (60_exceptions.md R202). -/
def Cause.code : Cause → Word
  | .updateAfterFinalize => 1
  | .finalizeTwice => 2
  | .noInstance => 3
  | .illegalCommand => 4
  | .faulted => 5

/-- `kind = RSP[3:0]` (30_encoding.md R78). -/
def Response.kind : Response → BitVec 4
  | .done => 0x0
  | .digest64 _ => 0x1
  | .digest128 _ _ => 0x2
  | .fault _ => 0xf

/-- `lo = RSP[67:4]` (30_encoding.md R78). -/
def Response.lo : Response → Word
  | .done => 0
  | .digest64 d => d
  | .digest128 lo _ => lo
  | .fault c => c.code

/-- `hi = RSP[131:68]` (30_encoding.md R78). -/
def Response.hi : Response → Word
  | .done => 0
  | .digest64 _ => 0
  | .digest128 _ hi => hi
  | .fault _ => 0

/-- The 132-bit response word `{hi, lo, kind}` (30_encoding.md R78). -/
def Response.word (r : Response) : RspWord := r.hi ++ r.lo ++ r.kind

/-- A 64-bit digest as 8 bytes, little-endian (20_memory.md R52). -/
def digestBytes64 (d : Word) : List Byte := bytesLe d

/-- A 128-bit digest as 16 bytes, little-endian, low word first (20_memory.md R52). -/
def digestBytes128 (lo hi : Word) : List Byte := bytesLe lo ++ bytesLe hi

end Sys2Proof.Machine
end

