-- ==== Sys2Proof/Machine/Assembler.lean ====
section
/-! DEFINITION. Programs: what a line of assembler stands for at the port, the pseudo-instructions' expansions
(30_encoding.md R80, 44_oneshot_wrappers.md R180, R181), and the assembler syntax as text (30_encoding.md R79). -/

namespace Sys2Proof.Machine

/-- A byte sequence cut into beats of 8 bytes and a last one of the 1 to 7 bytes left (30_encoding.md R80). -/
def cutBeats : List Byte → List (List Byte)
  | [] => []
  | b0 :: b1 :: b2 :: b3 :: b4 :: b5 :: b6 :: b7 :: rest => [b0, b1, b2, b3, b4, b5, b6, b7] :: cutBeats rest
  | b :: tail => [b :: tail]

/-- `UPDATE B`: the canonical beats; for the empty sequence one `ABSORB 0` (30_encoding.md R80). -/
def expandUpdate (bytes : List Byte) : List Instr :=
  match cutBeats bytes with
  | [] => [.absorb []]
  | beats => beats.map .absorb

/-- `HASH64 B` (44_oneshot_wrappers.md R180). -/
def expandHash64 (bytes : List Byte) : List Instr := .construct 0 0 :: expandUpdate bytes ++ [.digest64]

/-- `HASH128 B` (44_oneshot_wrappers.md R181). -/
def expandHash128 (bytes : List Byte) : List Instr := .construct 0 0 :: expandUpdate bytes ++ [.digest128]

/-- The command words of a list of commands, as the host presents them. -/
def presentAll (is : List Instr) : List Event := is.map fun i => .command (encode i)

/-- The events one line of a program stands for (30_encoding.md R79, R80). -/
def assemble : AsmLine → List Event
  | .command i => presentAll [i]
  | .reset => [.reset]
  | .update bytes => presentAll (expandUpdate bytes)
  | .hash64 bytes => presentAll (expandHash64 bytes)
  | .hash128 bytes => presentAll (expandHash128 bytes)

/-! ### The text of a line (30_encoding.md R79; the points it leaves open are log 12) -/

/-- A token of a line: a word, a quoted string, or a comma. -/
inductive Token where
  | word (cs : List Char)
  | str (cs : List Char)
  | comma
deriving DecidableEq, Repr

/-- The token a finished run of characters makes: none for an empty run. -/
def flushWord (cs : List Char) : List Token := if cs = [] then [] else [.word cs.reverse]

/-- The tokens of a line; `cur` is the run being read, latest character first, `quoted` says it stands inside a
string. A `;` outside a string starts a comment (30_encoding.md R79). An unclosed string is no line. -/
def tokens : (quoted : Bool) → (cur : List Char) → List Char → Option (List Token)
  | true, _, [] => none
  | true, cur, c :: cs =>
    if c.toNat = 34 then (tokens false [] cs).map (.str cur.reverse :: ·) else tokens true (c :: cur) cs
  | false, cur, [] => some (flushWord cur)
  | false, cur, c :: cs =>
    if c = ';' then some (flushWord cur)
    else if c = ',' then (tokens false [] cs).map (flushWord cur ++ .comma :: ·)
    else if c = ' ' then (tokens false [] cs).map (flushWord cur ++ ·)
    else if c.toNat = 34 then (tokens true [] cs).map (flushWord cur ++ ·)
    else tokens false (c :: cur) cs

/-- The value of a digit of the given base, 10 or 16. -/
def digitValue (base : Nat) (c : Char) : Option Nat :=
  let n := c.toNat
  let d := if 48 ≤ n ∧ n ≤ 57 then some (n - 48) else if 97 ≤ n ∧ n ≤ 102 then some (n - 87)
    else if 65 ≤ n ∧ n ≤ 70 then some (n - 55) else none
  d.bind fun d => if d < base then some d else none

/-- The value of a run of digits, the most significant first. -/
def digitsValue (base : Nat) : Nat → List Char → Option Nat
  | acc, [] => some acc
  | acc, c :: cs => (digitValue base c).bind fun d => digitsValue base (base * acc + d) cs

/-- A number: `0x` and hexadecimal digits, or decimal digits. -/
def numberValue : List Char → Option Nat
  | '0' :: 'x' :: c :: cs => digitsValue 16 0 (c :: cs)
  | c :: cs => digitsValue 10 0 (c :: cs)
  | [] => none

/-- A 64-bit literal (30_encoding.md R79). -/
def wordLiteral (cs : List Char) : Option Word :=
  (numberValue cs).bind fun n => if n < 2 ^ 64 then some (BitVec.ofNat 64 n) else none

/-- A byte literal: two hexadecimal digits (30_encoding.md R79). -/
def byteLiteral : List Char → Option Byte
  | [c, d] => (digitsValue 16 0 [c, d]).map (BitVec.ofNat 8)
  | _ => none

/-- A list of byte literals. -/
def byteLiterals : List Token → Option (List Byte)
  | [] => some []
  | .word cs :: ts => (byteLiteral cs).bind fun b => (byteLiterals ts).map (b :: ·)
  | _ :: _ => none

/-- The bytes of an ASCII string. -/
def asciiBytes : List Char → Option (List Byte)
  | [] => some []
  | c :: cs => if c.toNat < 128 then (asciiBytes cs).map (BitVec.ofNat 8 c.toNat :: ·) else none

/-- The line is well-formed, or there is no line. -/
def checkedLine (l : AsmLine) : Option AsmLine := if l.wf then some l else none

/-- An ABSORB line whose count agrees with its byte literals and is at most 8. -/
def countedBeat (count : List Char) (ts : List Token) : Option AsmLine :=
  (numberValue count).bind fun n => (byteLiterals ts).bind fun bytes =>
    if bytes.length = n then checkedLine (.command (.absorb bytes)) else none

/-- The line a list of tokens stands for (30_encoding.md R79, R80). -/
def lineOf : List Token → Option AsmLine
  | [.word op, .word x, .comma, .word y] =>
    if op = "CONSTRUCT".toList then
      (wordLiteral x).bind fun k0 => (wordLiteral y).map fun k1 => .command (.construct k0 k1)
    else if op = "ABSORB".toList then countedBeat x [.word y]
    else none
  | [.word op, .str cs] =>
    (asciiBytes cs).bind fun bytes =>
      if op = "ABSORB".toList then checkedLine (.command (.absorb bytes))
      else if op = "UPDATE".toList then some (.update bytes)
      else if op = "HASH64".toList then some (.hash64 bytes)
      else if op = "HASH128".toList then some (.hash128 bytes)
      else none
  | [.word op] =>
    if op = "DIGEST64".toList then some (.command .digest64)
    else if op = "DIGEST128".toList then some (.command .digest128)
    else if op = "RESET".toList then some .reset
    else none
  | .word op :: .word n :: .comma :: ts => if op = "ABSORB".toList then countedBeat n ts else none
  | [.word op, .word n] => if op = "ABSORB".toList then countedBeat n [] else none
  | _ => none

/-- The line a text stands for; none where the text is no line of R79. -/
def parseLine (text : String) : Option AsmLine := (tokens false [] text.toList).bind lineOf

end Sys2Proof.Machine
end

