-- ==== Sys2Proof/Machine/Reference.lean ====
section
/-! DEFINITION. The closed forms the spec gives beside its pseudocode, written without the state machine: SIPROUND as
one function and its inverse (40_round_function.md R104, R106), the byte-serial step (42_streaming_hasher.md R134), and
the digest as a function of key and message (R137, 43_finalization_digest.md R161, R166). No step uses them; the
claims compare the machine with them. -/

namespace Sys2Proof.Machine

/-- SIPROUND as one function of its inputs (40_round_function.md R104). -/
def sipRoundClosed (v : Lanes) : Lanes :=
  let a0 := add64 v.v0 v.v1
  let b1 := xor64 (rotl64 v.v1 13) a0
  let c0 := rotl64 a0 32
  let a2 := add64 v.v2 v.v3
  let b3 := xor64 (rotl64 v.v3 16) a2
  let d0 := add64 c0 b3
  let e3 := xor64 (rotl64 b3 21) d0
  let d2 := add64 a2 b1
  let e1 := xor64 (rotl64 b1 17) d2
  let f2 := rotl64 d2 32
  ⟨d0, e1, f2, e3⟩

/-- The inverse of SIPROUND, the assignments run backwards; the hardware never computes it (40_round_function.md
R106). -/
def sipRoundInverse (v : Lanes) : Lanes :=
  let v := { v with v2 := rotl64 v.v2 32 }
  let v := { v with v1 := xor64 v.v1 v.v2 }
  let v := { v with v1 := rotl64 v.v1 47 }
  let v := { v with v2 := v.v2 - v.v1 }
  let v := { v with v3 := xor64 v.v3 v.v0 }
  let v := { v with v3 := rotl64 v.v3 43 }
  let v := { v with v0 := v.v0 - v.v3 }
  let v := { v with v3 := xor64 v.v3 v.v2 }
  let v := { v with v3 := rotl64 v.v3 48 }
  let v := { v with v2 := v.v2 - v.v3 }
  let v := { v with v0 := rotl64 v.v0 32 }
  let v := { v with v1 := xor64 v.v1 v.v0 }
  let v := { v with v1 := rotl64 v.v1 51 }
  { v with v0 := v.v0 - v.v1 }

/-- ABSORB_BYTE(x): one byte into the buffer, a full word injected at once (42_streaming_hasher.md R134). -/
def absorbByte (s : State) (x : Byte) : State :=
  let t := s.appendByte x
  if s.fill = 7 then t.injectPending.setPending 0 else t

/-- The whole words of a message, in order (42_streaming_hasher.md R137: `w_t`). -/
def wholeWords (m : List Byte) : List Word :=
  (List.range (m.length / 8)).map fun t => le64 ((m.drop (8 * t)).take 8)

/-- The tail of a message: its last `length mod 8` bytes (42_streaming_hasher.md R137: `M[8q]` upward). -/
def messageTail (m : List Byte) : List Byte := m.drop (8 * (m.length / 8))

/-- The tail of a message as a word, zero above (42_streaming_hasher.md R137). -/
def tailWord (m : List Byte) : Word := le64 (messageTail m)

/-- The lanes after absorbing a message from given lanes: the left fold of INJECT over its whole words
(42_streaming_hasher.md R137, 41_block_mixer.md R122). -/
def absorbedLanes (v : Lanes) (m : List Byte) : Lanes := (wholeWords m).foldl inject v

/-- The final word: the tail and, on top, the length modulo 256 (43_finalization_digest.md R161). -/
def finalWord (m : List Byte) : Word := tailWord m + (BitVec.ofNat 64 (m.length % 256) <<< 56)

/-- The finalized lanes for a key and a message (43_finalization_digest.md R166: `V3`). -/
def hashLanes (c : Config.InitConstants) (k0 k1 : Word) (m : List Byte) : Lanes :=
  finishLanes (inject (absorbedLanes (keyedLanes c k0 k1) m) (finalWord m))

/-- `H64(k0, k1, M)` (43_finalization_digest.md R166), over any initialization constants. -/
def keyedHash64 (c : Config.InitConstants) (k0 k1 : Word) (m : List Byte) : Word :=
  let v := hashLanes c k0 k1 m
  v.v0 ^^^ v.v1 ^^^ v.v2 ^^^ v.v3

/-- `H128(k0, k1, M)`, low and high half (43_finalization_digest.md R166), over any initialization constants. -/
def keyedHash128 (c : Config.InitConstants) (k0 k1 : Word) (m : List Byte) : Word × Word :=
  let v := hashLanes c k0 k1 m
  (v.v0 ^^^ v.v1, v.v2 ^^^ v.v3)

end Sys2Proof.Machine
end

