-- ==== Sys2Proof/Safety.lean ====
section
/-! DEFINITION. What the claims speak of: the invariant of the block (10_state.md R30, R31), what a host can tell apart
(R36, R37), a failed run (70_reset_and_hazards.md R238), and the legal use of the block (R233). -/

namespace Sys2Proof.Machine

/-- `k` steps from a state (70_reset_and_hazards.md R238: a run applies the host's events one after another). -/
def State.runSteps (s : State) (k : Nat) : Host.Outcome State Fault Refusal := Host.Core.run Sys2Proof.core k s

/-- The event is a command, which is answered, and not a reset, which is not (30_encoding.md R78, 70 R230). -/
def Event.isCommand : Event → Bool
  | .command _ => true
  | .reset => false

/-- Every byte of `pending` at index `cnt mod 8` and above is zero (10_state.md R30). -/
abbrev State.zeroAboveLive (s : State) : Prop := s.pending.toNat / 2 ^ (8 * s.fill) = 0

/-- `pending` holds a final word: byte 7 is the low byte of the counter and the bytes from `cnt mod 8` to 6 are zero
(43_finalization_digest.md R160, R161). -/
abbrev State.holdsFinalWord (s : State) : Prop :=
  byteAt s.pending 7 = s.cnt.setWidth 8 ∧ (s.pending.toNat % 2 ^ 56) / 2 ^ (8 * s.fill) = 0

/-- The invariant every step keeps: 10_state.md R30 in ABSORBING, and what FINALIZE leaves in FINALIZED. -/
abbrev State.Inv (s : State) : Prop :=
  (s.phase = .absorbing → s.zeroAboveLive) ∧ (s.phase = .finalized → s.holdsFinalWord)

/-- The live bytes of the pending buffer, in order of index (10_state.md R31). -/
def State.liveBytes (s : State) : List Byte := (bytesLe s.pending).take s.fill

/-- Two states no host can tell apart: the same constants and phase, the same events to come and responses so far and,
only where an instance is live, the same lanes, pending buffer and low byte of the counter (10_state.md R28, R36, R37). -/
structure State.Indistinguishable (s t : State) : Prop where
  consts : s.consts = t.consts
  phase : s.phase = t.phase
  inbox : s.inbox = t.inbox
  responses : s.responses = t.responses
  lanes : s.phase = .absorbing → s.lanes = t.lanes
  pending : s.phase = .absorbing → s.pending = t.pending
  cnt : s.phase = .absorbing → s.cnt.toNat % 256 = t.cnt.toNat % 256

/-- The response is a FAULT (30_encoding.md R78). -/
def Response.isFault : Response → Bool
  | .done => false
  | .digest64 _ => false
  | .digest128 _ _ => false
  | .fault _ => true

/-- A run that contains a FAULT response is a failed run (70_reset_and_hazards.md R238). -/
def failedRun (rs : List Response) : Bool := rs.any Response.isFault

/-- The legal use of one instance: `CONSTRUCT ABSORB* (DIGEST64 | DIGEST128)` (70_reset_and_hazards.md R233). -/
structure Session where
  k0 : Word
  k1 : Word
  beats : List (List Byte)
  /-- DIGEST128 at the end instead of DIGEST64. -/
  wide : Bool
deriving DecidableEq, Repr

/-- Every beat of the session fits one ABSORB (30_encoding.md R74). -/
def Session.wf (u : Session) : Bool := u.beats.all fun b => decide (b.length ≤ beatMax)

/-- The commands of a session. -/
def Session.commands (u : Session) : List Instr :=
  .construct u.k0 u.k1 :: u.beats.map .absorb ++ [if u.wide then .digest128 else .digest64]

/-- The message of a session: the concatenation of its beats. -/
def Session.message (u : Session) : List Byte := u.beats.flatten

/-- The digest response the closed form gives for the session's key and message, over any initialization constants
(43_finalization_digest.md R166). -/
def Session.digest (c : Config.InitConstants) (u : Session) : Response :=
  if u.wide then
    .digest128 (keyedHash128 c u.k0 u.k1 u.message).1 (keyedHash128 c u.k0 u.k1 u.message).2
  else .digest64 (keyedHash64 c u.k0 u.k1 u.message)

/-- The responses of a session: DONE for CONSTRUCT and for each beat, then the digest. -/
def Session.responses (c : Config.InitConstants) (u : Session) : List Response :=
  .done :: u.beats.map (fun _ => .done) ++ [u.digest c]

end Sys2Proof.Machine
end

