-- ==== Sys2Proof/Certificates/Slice0/Obligations.lean ====
section
/-! DEFINITION. The statements for the provers, one `def Obligations.<Name> : Prop` each. -/

open Sys2Proof Sys2Proof.Machine

/-! ### Arithmetic, SIPROUND and INJECT (40_round_function.md, 41_block_mixer.md) -/

/-- 40_round_function.md R100: addition is modulo `2^64` and wraps silently; its corner cases. -/
def Obligations.AdditionWrapsSilently : Prop :=
  (∀ a b : Word, (add64 a b).toNat = (a.toNat + b.toNat) % 2 ^ 64) ∧
  add64 0xffffffffffffffff 0x0000000000000001 = 0x0000000000000000 ∧
  add64 0x8000000000000000 0x8000000000000000 = 0x0000000000000000 ∧
  ∀ a : Word, add64 a 0 = a

/-- 40_round_function.md R101: the rotation as a formula on numbers, bit by bit, the swap of the halves, the rotation
of all ones, and the rule's six examples. -/
def Obligations.RotationIsCircularLeft : Prop :=
  (∀ (x : Word) (n : Nat), 0 < n → n < 64 →
    (rotl64 x n).toNat = (x.toNat * 2 ^ n) % 2 ^ 64 + x.toNat / 2 ^ (64 - n) ∧
    (∀ i, i < 64 → (rotl64 x n).getLsbD i = x.getLsbD ((i + (64 - n)) % 64)) ∧
    rotl64 0xffffffffffffffff n = 0xffffffffffffffff) ∧
  (∀ x : Word, rotl64 x 32 = x.extractLsb' 0 32 ++ x.extractLsb' 32 32) ∧
  rotl64 0x0000000000000001 13 = 0x0000000000002000 ∧
  rotl64 0x8000000000000001 13 = 0x0000000000003000 ∧
  rotl64 0x0123456789abcdef 32 = 0x89abcdef01234567 ∧
  rotl64 0x0123456789abcdef 16 = 0x456789abcdef0123 ∧
  rotl64 0x0123456789abcdef 21 = 0xacf13579bde02468 ∧
  rotl64 0x0123456789abcdef 17 = 0x8acf13579bde0246

/-- 40_round_function.md R102: exclusive-or bit by bit, with itself and with zero. -/
def Obligations.XorIsBitwiseSumModuloTwo : Prop :=
  (∀ (a b : Word) (i : Nat), i < 64 →
    ((xor64 a b).getLsbD i).toNat = ((a.getLsbD i).toNat + (b.getLsbD i).toNat) % 2) ∧
  (∀ a : Word, xor64 a a = 0) ∧
  ∀ a : Word, xor64 a 0 = a

/-- 40_round_function.md R103: the fourteen assignments in order, each seeing the results of those before it, written
here with the library's own addition, rotation and exclusive-or; the all-zero corner case and the worked example. -/
def Obligations.SipRoundRunsTheFourteenAssignments : Prop :=
  (∀ v0 v1 v2 v3 : Word,
    sipRound ⟨v0, v1, v2, v3⟩ =
      (let v0 := v0 + v1
       let v1 := v1.rotateLeft 13
       let v1 := v1 ^^^ v0
       let v0 := v0.rotateLeft 32
       let v2 := v2 + v3
       let v3 := v3.rotateLeft 16
       let v3 := v3 ^^^ v2
       let v0 := v0 + v3
       let v3 := v3.rotateLeft 21
       let v3 := v3 ^^^ v0
       let v2 := v2 + v1
       let v1 := v1.rotateLeft 17
       let v1 := v1 ^^^ v2
       let v2 := v2.rotateLeft 32
       ⟨v0, v1, v2, v3⟩)) ∧
  sipRound ⟨0, 0, 0, 0⟩ = ⟨0, 0, 0, 0⟩ ∧
  sipRound ⟨0x736f6d6570736575, 0x646f72616e646f6d, 0x6c7967656e657261, 0x7465646279746573⟩ =
    ⟨0x639487965a898377, 0xfe651ba6cbca2366, 0x3b1450431a71bdd2, 0x35e4d2c22cb914e1⟩

/-- 40_round_function.md R104: SIPROUND as one function of its inputs. -/
def Obligations.SipRoundHasItsClosedForm : Prop :=
  ∀ v : Lanes, sipRound v = sipRoundClosed v

/-- 40_round_function.md R106: SIPROUND is a bijection, and the rule's backwards run is its inverse on both sides. -/
def Obligations.SipRoundIsABijection : Prop :=
  ∀ v : Lanes, sipRoundInverse (sipRound v) = v ∧ sipRound (sipRoundInverse v) = v

/-- 40_round_function.md R107: all-zero lanes are a fixed point, nothing else reaches them in a round, and CONSTRUCT
never makes them when `C0 ≠ C2`, which holds of the default constants. -/
def Obligations.ZeroLanesAreAFixedPoint : Prop :=
  (∀ v : Lanes, sipRound v = ⟨0, 0, 0, 0⟩ ↔ v = ⟨0, 0, 0, 0⟩) ∧
  (∀ (c : Config.InitConstants) (k0 k1 : Word), c.c0 ≠ c.c2 → keyedLanes c k0 k1 ≠ ⟨0, 0, 0, 0⟩) ∧
  initConstants.c0 ≠ initConstants.c2

/-- 41_block_mixer.md R120 with 40_round_function.md R105: INJECT is the word into lane 3, exactly two rounds, the same
word into lane 0; a zero word is no no-op but on all-zero lanes; and its worked example. -/
def Obligations.InjectMixesTheWordInTwoRounds : Prop :=
  (∀ v0 v1 v2 v3 m : Word,
    inject ⟨v0, v1, v2, v3⟩ m =
      (let u := sipRound (sipRound ⟨v0, v1, v2, v3 ^^^ m⟩)
       ⟨u.v0 ^^^ m, u.v1, u.v2, u.v3⟩)) ∧
  inject ⟨0, 0, 0, 0⟩ 0 = ⟨0, 0, 0, 0⟩ ∧
  (∃ v : Lanes, inject v 0 ≠ v) ∧
  inject ⟨0x736f6d6570736575, 0x646f72616e646f6d, 0x6c7967656e657261, 0x7465646279746573⟩ 0x0706050403020100 =
    ⟨0x42db706f57db6a65, 0x056732541e3ada7e, 0x22a32b4dfed35fd2, 0x352a4c13b09bfad3⟩

/-- 41_block_mixer.md R122: for a fixed word, INJECT is a bijection on the lanes. -/
def Obligations.InjectIsABijectionOnLanes : Prop :=
  ∀ m : Word, Function.Bijective fun v : Lanes => inject v m

/-! ### Bytes of a word (00_scope.md R12, 20_memory.md R51 to R53) -/

/-- 00_scope.md R12: `byte` is a slice, `setbyte` replaces one byte and leaves all others, `le64` puts byte `i` at index
`i`, and `bytes_le` is its inverse. -/
def Obligations.WordsAreLittleEndianBytes : Prop :=
  (∀ (w : Word) (i k : Nat), i < 8 → k < 8 → (byteAt w i).getLsbD k = w.getLsbD (8 * i + k)) ∧
  (∀ (w : Word) (b : Byte) (i j : Nat), i < 8 → j < 8 →
    byteAt (setByte w i b) j = if j = i then b else byteAt w j) ∧
  (∀ bytes : List Byte, bytes.length = 8 → bytesLe (le64 bytes) = bytes) ∧
  (∀ w : Word, le64 (bytesLe w) = w) ∧
  ∀ b0 b1 b2 b3 b4 b5 b6 b7 : Byte,
    (le64 [b0, b1, b2, b3, b4, b5, b6, b7]).toNat =
      b0.toNat + b1.toNat * 2 ^ 8 + b2.toNat * 2 ^ 16 + b3.toNat * 2 ^ 24 + b4.toNat * 2 ^ 32 + b5.toNat * 2 ^ 40 +
        b6.toNat * 2 ^ 48 + b7.toNat * 2 ^ 56

/-- 20_memory.md R53: a word assembled byte by byte is the word taken at once; a shorter tail has zeros above. -/
def Obligations.BytewiseAssemblyGivesTheSameWord : Prop :=
  ∀ bytes : List Byte, bytes.length ≤ 8 → copyTail 0 bytes 0 = le64 bytes

/-- 20_memory.md R52: the digests as bytes, low word first, each least significant byte first: byte `i` of the 128-bit
number `{hi, lo}`. -/
def Obligations.DigestBytesAreLittleEndian : Prop :=
  (∀ lo hi : Word,
    (digestBytes128 lo hi).length = 16 ∧ digestBytes128 lo hi = bytesLe lo ++ bytesLe hi ∧
    ∀ i, i < 16 → (digestBytes128 lo hi)[i]? = some ((hi ++ lo : BitVec 128).extractLsb' (8 * i) 8)) ∧
  ∀ d : Word,
    (digestBytes64 d).length = 8 ∧ ∀ i, i < 8 → (digestBytes64 d)[i]? = some (d.extractLsb' (8 * i) 8)

/-! ### Encoding (30_encoding.md) -/

/-- The decoder reads back every operand of every well-formed command at every value (30_encoding.md R71 to R75). -/
def Obligations.DecodeOfEncodeIsTheCommand : Prop :=
  ∀ i : Instr, i.wf = true → decode (encode i) = .command i

/-- Every legal word is the encoding of the command it decodes to, but for the ignored data bytes of an ABSORB, which the
encoder sets to zero (30_encoding.md R72, R74, R79); what is decoded is well-formed. -/
def Obligations.EncodeOfDecodeIsTheWord : Prop :=
  ∀ (w : CmdWord) (i : Instr), decode w = .command i →
    i.wf = true ∧ (encode i).op = w.op ∧ (encode i).len = w.len ∧ (encode i).b = w.b ∧
    match i with
    | .absorb _ => ∀ j, j < 8 → byteAt (encode i).a j = if j < w.len.toNat then byteAt w.a j else 0
    | _ => encode i = w

/-- 30_encoding.md R75: a word selects a row of the opcode map exactly when it decodes to a command of the row's name,
and no two rows overlap. -/
def Obligations.DecodeAgreesWithTheOpcodeTable : Prop :=
  (∀ w : CmdWord, ∀ r ∈ opcodeRows,
    r.selects w = true ↔ ∃ i, decode w = .command i ∧ i.mnemonic = r.mnemonic) ∧
  ∀ w : CmdWord, opcodeRows.Pairwise fun r r' => ¬(r.selects w = true ∧ r'.selects w = true)

/-- 30_encoding.md R76: exactly which words are illegal, what an illegal word raises, and that the all-zero word is
illegal. -/
def Obligations.IllegalWordsRaiseTheFault : Prop :=
  (∀ w : CmdWord, (∃ why, decode w = .illegal why) ↔
    w.op.toNat = 0 ∨ 5 ≤ w.op.toNat ∨
    (w.op = 1 ∧ w.len ≠ 0) ∨
    (w.op = 2 ∧ (8 < w.len.toNat ∨ w.b ≠ 0)) ∨
    ((w.op = 3 ∨ w.op = 4) ∧ (w.len ≠ 0 ∨ w.a ≠ 0 ∨ w.b ≠ 0))) ∧
  (∀ (s : State) (w : CmdWord) (q : List Event) (why : Illegal),
    s.inbox = .command w :: q → decode w = .illegal why →
    step s = .next { s with
      phase := .faulted
      inbox := q
      responses := s.responses ++ [.fault (if s.phase = .faulted then .faulted else .illegalCommand)] }) ∧
  ∃ why, decode 0 = .illegal why

/-- 30_encoding.md R73: the operands of CONSTRUCT are the two 64-bit fields as they stand. -/
def Obligations.ConstructOperandsAreTheFields : Prop :=
  ∀ w : CmdWord, w.extractLsb 3 0 = 1 → w.extractLsb 7 4 = 0 →
    decode w = .command (.construct (w.extractLsb 71 8) (w.extractLsb 135 72))

/-- 30_encoding.md R74: the bytes of an ABSORB are the first `n` bytes of the data word, `B[i] = CMD[8*i+15 : 8*i+8]`;
the bytes above are ignored; a full beat is exactly the data word, and on a word boundary it injects exactly that. -/
def Obligations.AbsorbBytesAreTheFirstOfTheDataWord : Prop :=
  (∀ w : CmdWord, w.op = 2 → w.len.toNat ≤ 8 → w.b = 0 →
    ∃ bytes : List Byte, decode w = .command (.absorb bytes) ∧ bytes.length = w.len.toNat ∧
      (∀ i, i < w.len.toNat → bytes[i]? = some (w.extractLsb' (8 * i + 8) 8)) ∧
      (w.len = 8 → le64 bytes = w.extractLsb 71 8)) ∧
  (∀ w w' : CmdWord, w.op = 2 → w'.op = 2 → w.len = w'.len → w.b = w'.b →
    (∀ i, i < w.len.toNat → byteAt w.a i = byteAt w'.a i) → decode w = decode w') ∧
  ∀ (s : State) (w : CmdWord) (q : List Event), s.inbox = .command w :: q → s.phase = .absorbing →
    s.cnt.toNat % 8 = 0 → w.op = 2 → w.len = 8 → w.b = 0 →
    ∃ t, step s = .next t ∧ t.lanes = inject s.lanes (w.extractLsb 71 8)

/-- A few words written out from 95_test_vectors.md section 7 decode to the commands they stand for, and their nearest
illegal neighbours do not decode. -/
def Obligations.SampleWordsDecode : Prop :=
  decode 0x0f0e0d0c0b0a0908070605040302010001 = .command (.construct 0x0706050403020100 0x0f0e0d0c0b0a0908) ∧
  decode 0x0000000000000000deadbeef0063626132 = .command (.absorb [0x61, 0x62, 0x63]) ∧
  decode 0x0000000000000000000000000000000003 = .command .digest64 ∧
  decode 0x0000000000000000000000000000000004 = .command .digest128 ∧
  decode 0x0000000000000000000000000000000005 = .illegal .reservedOpcode ∧
  decode 0x0000000000000000000000000000000092 = .illegal .absorbLenAboveEight ∧
  decode 0x0000000000000001000000000000000082 = .illegal .absorbBNotZero ∧
  decode 0x0000000000000000000000000000000011 = .illegal .constructLenNotZero ∧
  decode 0x0000000000000000000000000000000103 = .illegal .digestOperandNotZero

/-- 30_encoding.md R78: the fields of the response word for each response, that no other kind is produced, which
command produces which response, and that the 16-byte form of a 128-bit digest is `RSP[131:4]`. -/
def Obligations.ResponseWordHasItsFields : Prop :=
  (∀ r : Response,
    let w := r.word
    match r with
    | .done => w.extractLsb 3 0 = 0x0 ∧ w.extractLsb 67 4 = 0 ∧ w.extractLsb 131 68 = 0
    | .digest64 d => w.extractLsb 3 0 = 0x1 ∧ w.extractLsb 67 4 = d ∧ w.extractLsb 131 68 = 0
    | .digest128 lo hi =>
      w.extractLsb 3 0 = 0x2 ∧ w.extractLsb 67 4 = lo ∧ w.extractLsb 131 68 = hi ∧
      ∀ i, i < 16 → (digestBytes128 lo hi)[i]? = some ((w.extractLsb 131 4).extractLsb' (8 * i) 8)
    | .fault c => w.extractLsb 3 0 = 0xf ∧ w.extractLsb 67 4 = c.code ∧ w.extractLsb 131 68 = 0) ∧
  ∀ (i : Instr) (s t : State), exec i s = .next t →
    ∃ r, t.responses = s.responses ++ [r] ∧
      match i with
      | .construct _ _ => r = .done ∨ ∃ c, r = .fault c
      | .absorb _ => r = .done ∨ ∃ c, r = .fault c
      | .digest64 => (∃ d, r = .digest64 d) ∨ ∃ c, r = .fault c
      | .digest128 => (∃ lo hi, r = .digest128 lo hi) ∨ ∃ c, r = .fault c

/-- No two responses have the same word (30_encoding.md R78), so the host reads from it exactly what was answered. -/
def Obligations.ResponseWordsAreDistinct : Prop :=
  ∀ r r' : Response, r.word = r'.word → r = r'

/-- 30_encoding.md R79: every line the assembler reads is well-formed, and the rule's own examples read as the commands
they stand for. -/
def Obligations.AssemblerReadsOnlyWellFormedLines : Prop :=
  (∀ (text : String) (l : AsmLine), parseLine text = some l → l.wf = true) ∧
  parseLine "CONSTRUCT 0x0706050403020100, 0x0f0e0d0c0b0a0908" =
    some (.command (.construct 0x0706050403020100 0x0f0e0d0c0b0a0908)) ∧
  parseLine "ABSORB 3, 61 62 63" = some (.command (.absorb [0x61, 0x62, 0x63])) ∧
  parseLine "ABSORB \"abc\" ; a comment" = some (.command (.absorb [0x61, 0x62, 0x63])) ∧
  parseLine "DIGEST64" = some (.command .digest64) ∧ parseLine "DIGEST128" = some (.command .digest128) ∧
  parseLine "RESET" = some .reset ∧ parseLine "ABSORB 2, 61 62 63" = none

/-! ### CONSTRUCT (42_streaming_hasher.md) -/

/-- 42_streaming_hasher.md R130, R131: the whole effect of CONSTRUCT in every phase but FAULTED, whatever the block held;
the zero key gives the constants themselves; and its two faults. The constants are the block's parameters
(00_scope.md R9), any four words; nothing here rests on their values. -/
def Obligations.ConstructStartsAFreshInstance : Prop :=
  (∀ (k0 k1 : Word) (s : State), s.phase ≠ .faulted →
    exec (.construct k0 k1) s = .next { s with
      phase := .absorbing
      lanes := ⟨s.consts.c0 ^^^ k0, s.consts.c1 ^^^ k1, s.consts.c2 ^^^ k0, s.consts.c3 ^^^ k1⟩
      cnt := 0
      pending := 0
      responses := s.responses ++ [.done] }) ∧
  (∀ (k0 k1 : Word) (s : State), s.phase = .faulted →
    exec (.construct k0 k1) s = .next { s with responses := s.responses ++ [.fault .faulted] }) ∧
  (∀ s : State, s.phase ≠ .faulted → ∃ t, exec (.construct 0 0) s = .next t ∧
    t.lanes = ⟨s.consts.c0, s.consts.c1, s.consts.c2, s.consts.c3⟩) ∧
  ∀ (s : State) (w : CmdWord) (q : List Event), s.inbox = .command w :: q → s.phase ≠ .faulted →
    w.op = 1 → w.len ≠ 0 →
    step s = .next { s with
      phase := .faulted, inbox := q, responses := s.responses ++ [.fault .illegalCommand] }

/-- A block with the default constants gives the lanes of the worked examples (95_test_vectors.md section 4). The values
of the constants are PRESUMED, log 1. -/
def Obligations.DefaultConstantsGiveTheListedLanes : Prop :=
  ∀ s : State, s.consts = initConstants → s.phase ≠ .faulted → ∃ t u,
    exec (.construct 0x0706050403020100 0x0f0e0d0c0b0a0908) s = .next t ∧
    t.lanes = ⟨0x7469686173716475, 0x6b617f6d656e6665, 0x6b7f62616d677361, 0x7b6b696e727e6c7b⟩ ∧
    exec (.construct 0 1) s = .next u ∧
    u.lanes = ⟨0x736f6d6570736575, 0x646f72616e646f6c, 0x6c7967656e657261, 0x7465646279746572⟩

/-! ### UPDATE and ABSORB (42_streaming_hasher.md) -/

/-- 42_streaming_hasher.md R135: the three cases of one ABSORB beat, each with the whole next state. The premise on
`pending` is the invariant 10_state.md R30, which `StepKeepsTheInvariant` states of every step. -/
def Obligations.AbsorbHasItsThreeCases : Prop :=
  ∀ (bytes : List Byte) (s : State), s.phase = .absorbing → s.zeroAboveLive → bytes.length ≤ 8 →
    let r := s.cnt.toNat % 8
    let n := bytes.length
    (r + n < 8 → exec (.absorb bytes) s = .next { s with
      pending := s.pending + (le64 bytes <<< (8 * r))
      cnt := s.cnt + BitVec.ofNat 64 n
      responses := s.responses ++ [.done] }) ∧
    (r + n = 8 → exec (.absorb bytes) s = .next { s with
      lanes := inject s.lanes (s.pending + (le64 bytes <<< (8 * r)))
      pending := 0
      cnt := s.cnt + BitVec.ofNat 64 n
      responses := s.responses ++ [.done] }) ∧
    (8 < r + n → exec (.absorb bytes) s = .next { s with
      lanes := inject s.lanes (s.pending + (le64 (bytes.take (8 - r)) <<< (8 * r)))
      pending := le64 (bytes.drop (8 - r))
      cnt := s.cnt + BitVec.ofNat 64 n
      responses := s.responses ++ [.done] })

/-- ABSORB completes in every ABSORBING state, the counter advances by exactly the bytes carried on every path
(10_state.md R26, R27; 42_streaming_hasher.md R133, R135), and its frame: phase, events, draws and
constants stay. -/
def Obligations.AbsorbCompletesAndCounts : Prop :=
  ∀ (bytes : List Byte) (s : State), s.phase = .absorbing →
    ∃ t, exec (.absorb bytes) s = .next t ∧ t.phase = .absorbing ∧
      t.cnt = s.cnt + BitVec.ofNat 64 bytes.length ∧ t.responses = s.responses ++ [.done] ∧
      t.inbox = s.inbox ∧ t.draws = s.draws ∧ t.consts = s.consts

/-- 42_streaming_hasher.md R134: UPDATE is the byte-serial run, state for state. -/
def Obligations.UpdateIsTheByteSerialRun : Prop :=
  ∀ (bytes : List Byte) (s : State), s.zeroAboveLive → update bytes s = bytes.foldl absorbByte s

/-- 42_streaming_hasher.md R136: chunking invariance. Any cutting of the bytes into pieces, empty ones too, leaves the
same state as one UPDATE of all of them. -/
def Obligations.ChunkingDoesNotMatter : Prop :=
  ∀ (pieces : List (List Byte)) (s : State), s.zeroAboveLive →
    pieces.foldl (fun t piece => update piece t) s = update pieces.flatten s

/-- 42_streaming_hasher.md R137: the state reached in closed form, from any lanes with an empty buffer, and hence after
CONSTRUCT for any key: whole words injected in order, the tail in `pending`. -/
def Obligations.UpdateReachesItsClosedForm : Prop :=
  (∀ (m : List Byte) (s : State), s.cnt.toNat % 8 = 0 → s.pending = 0 →
    update m s = { s with
      lanes := absorbedLanes s.lanes m
      cnt := s.cnt + BitVec.ofNat 64 m.length
      pending := tailWord m }) ∧
  ∀ (k0 k1 : Word) (m : List Byte) (s : State), s.phase ≠ .faulted →
    ∃ t, exec (.construct k0 k1) s = .next t ∧
      update m t = { t with
        lanes := absorbedLanes (keyedLanes s.consts k0 k1) m
        cnt := BitVec.ofNat 64 m.length
        pending := tailWord m }

/-- 10_state.md R31: after UPDATE the number of live bytes is `cnt mod 8`, and they are the last ones absorbed. -/
def Obligations.LiveBytesAreTheLastAbsorbed : Prop :=
  ∀ (bytes : List Byte) (s : State), s.zeroAboveLive →
    let t := update bytes s
    t.liveBytes.length = t.cnt.toNat % 8 ∧
    t.liveBytes = (s.liveBytes ++ bytes).drop ((s.liveBytes ++ bytes).length - t.cnt.toNat % 8)

/-- A zero-length ABSORB in ABSORBING changes nothing and responds DONE (20_memory.md R56, 42_streaming_hasher.md
R139 (a), (b)). -/
def Obligations.ZeroLengthAbsorbChangesNothing : Prop :=
  ∀ s : State, s.phase = .absorbing → s.zeroAboveLive →
    exec (.absorb []) s = .next { s with responses := s.responses ++ [.done] }

/-! ### FINALIZE and the digests (43_finalization_digest.md) -/

/-- 43_finalization_digest.md R160, R162: the whole effect of DIGEST64 in ABSORBING, its faults, and that directly after
CONSTRUCT it gives the digest of the empty message. -/
def Obligations.Digest64FinalizesAndAnswers : Prop :=
  (∀ s : State, s.phase = .absorbing →
    exec .digest64 s = .next
      (let w := setByte s.pending 7 (s.cnt.extractLsb 7 0)
       let v := inject s.lanes w
       let u := sipRound (sipRound (sipRound (sipRound ⟨v.v0, v.v1, v.v2 ^^^ 0x00000000000000ff, v.v3⟩)))
       { s with
         phase := .finalized
         lanes := u
         pending := w
         responses := s.responses ++ [.digest64 (u.v0 ^^^ u.v1 ^^^ u.v2 ^^^ u.v3)] })) ∧
  (∀ (s : State) (c : Cause),
    (s.phase = .empty ∧ c = .noInstance) ∨ (s.phase = .finalized ∧ c = .finalizeTwice) ∨
      (s.phase = .faulted ∧ c = .faulted) →
    exec .digest64 s = .next { s with phase := .faulted, responses := s.responses ++ [.fault c] }) ∧
  (∀ (s : State) (w : CmdWord) (q : List Event), s.inbox = .command w :: q → s.phase ≠ .faulted →
    w.op = 3 → (w.len ≠ 0 ∨ w.a ≠ 0 ∨ w.b ≠ 0) →
    step s = .next { s with
      phase := .faulted, inbox := q, responses := s.responses ++ [.fault .illegalCommand] }) ∧
  ∀ (s : State) (k0 k1 : Word), s.phase ≠ .faulted →
    ∃ t u, exec (.construct k0 k1) s = .next t ∧ exec .digest64 t = .next u ∧
      u.responses = t.responses ++ [.digest64 (keyedHash64 s.consts k0 k1 [])]

/-- 43_finalization_digest.md R160, R163: the whole effect of DIGEST128 in ABSORBING, its faults, and that directly after
CONSTRUCT it gives the digest of the empty message. -/
def Obligations.Digest128FinalizesAndAnswers : Prop :=
  (∀ s : State, s.phase = .absorbing →
    exec .digest128 s = .next
      (let w := setByte s.pending 7 (s.cnt.extractLsb 7 0)
       let v := inject s.lanes w
       let u := sipRound (sipRound (sipRound (sipRound ⟨v.v0, v.v1, v.v2 ^^^ 0x00000000000000ff, v.v3⟩)))
       { s with
         phase := .finalized
         lanes := u
         pending := w
         responses := s.responses ++ [.digest128 (u.v0 ^^^ u.v1) (u.v2 ^^^ u.v3)] })) ∧
  (∀ (s : State) (c : Cause),
    (s.phase = .empty ∧ c = .noInstance) ∨ (s.phase = .finalized ∧ c = .finalizeTwice) ∨
      (s.phase = .faulted ∧ c = .faulted) →
    exec .digest128 s = .next { s with phase := .faulted, responses := s.responses ++ [.fault c] }) ∧
  (∀ (s : State) (w : CmdWord) (q : List Event), s.inbox = .command w :: q → s.phase ≠ .faulted →
    w.op = 4 → (w.len ≠ 0 ∨ w.a ≠ 0 ∨ w.b ≠ 0) →
    step s = .next { s with
      phase := .faulted, inbox := q, responses := s.responses ++ [.fault .illegalCommand] }) ∧
  ∀ (s : State) (k0 k1 : Word), s.phase ≠ .faulted →
    ∃ t u, exec (.construct k0 k1) s = .next t ∧ exec .digest128 t = .next u ∧
      u.responses = t.responses ++ [.digest128 (keyedHash128 s.consts k0 k1 []).1 (keyedHash128 s.consts k0 k1 []).2]

/-- 43_finalization_digest.md R164: from one state the 64-bit digest is the XOR of the two halves of the 128-bit one,
and the two commands differ in their response alone. -/
def Obligations.TheTwoDigestsAgree : Prop :=
  ∀ s : State, s.phase = .absorbing →
    ∃ d lo hi t u, exec .digest64 s = .next t ∧ exec .digest128 s = .next u ∧
      t.responses = s.responses ++ [.digest64 d] ∧ u.responses = s.responses ++ [.digest128 lo hi] ∧
      d = lo ^^^ hi ∧ u = { t with responses := u.responses }

/-- 43_finalization_digest.md R161: under the invariant, the final word is the tail plus the length byte on top. -/
def Obligations.FinalWordIsTailPlusLength : Prop :=
  (∀ s : State, s.zeroAboveLive →
    (finalize s).pending = s.pending + (BitVec.ofNat 64 (s.cnt.toNat % 256) <<< 56)) ∧
  ∀ (m : List Byte) (s : State), s.cnt = 0 → s.pending = 0 → (finalize (update m s)).pending = finalWord m

/-- 43_finalization_digest.md R165: after a digest command every command but CONSTRUCT faults, a digest command of either
width with cause 2 and ABSORB with cause 1; CONSTRUCT starts anew. -/
def Obligations.ADigestIsSingleUse : Prop :=
  ∀ (i j : Instr) (s t : State), (i = .digest64 ∨ i = .digest128) → s.phase = .absorbing → exec i s = .next t →
    t.phase = .finalized ∧
    ((j = .digest64 ∨ j = .digest128) →
      exec j t = .next { t with phase := .faulted, responses := t.responses ++ [.fault .finalizeTwice] }) ∧
    (∀ bytes, j = .absorb bytes →
      exec j t = .next { t with phase := .faulted, responses := t.responses ++ [.fault .updateAfterFinalize] }) ∧
    ∀ k0 k1, j = .construct k0 k1 →
      ∃ u, exec j t = .next u ∧ u.phase = .absorbing ∧ u.responses = t.responses ++ [.done]

/-- The digest is the function H64 or H128 of key and message (43_finalization_digest.md R166), and the legal use of the
block never faults (70_reset_and_hazards.md R233, 60_exceptions.md R208): any number of sessions
`CONSTRUCT ABSORB* (DIGEST64 | DIGEST128)`, with any keys and any beats, on a block with any constants, from any state
that is not FAULTED, answer DONE to each CONSTRUCT and ABSORB and the digest of the concatenated beats to each digest
command. -/
def Obligations.LegalUseAnswersTheHashOfEveryMessage : Prop :=
  ∀ (sessions : List Session) (s : State) (q : List Event),
    (∀ u ∈ sessions, u.wf = true) → s.phase ≠ .faulted →
    s.inbox = presentAll (sessions.flatMap Session.commands) ++ q →
    ∃ t, s.runSteps (sessions.flatMap Session.commands).length = .next t ∧ t.inbox = q ∧
      t.responses = s.responses ++ sessions.flatMap (Session.responses s.consts) ∧
      failedRun (sessions.flatMap (Session.responses s.consts)) = false ∧
      (sessions ≠ [] → t.phase = .finalized)

/-- 44_oneshot_wrappers.md R180, R181: HASH64 and HASH128 of any byte sequence, from every phase but FAULTED answer the
digest last, without a fault, and leave the block FINALIZED; from FAULTED every command of them responds FAULT(5). -/
def Obligations.OneShotWrappersAnswerTheDigest : Prop :=
  ∀ (bytes : List Byte) (s : State) (q : List Event),
    (s.phase ≠ .faulted → s.inbox = assemble (.hash64 bytes) ++ q →
      ∃ t, s.runSteps (assemble (.hash64 bytes)).length = .next t ∧ t.phase = .finalized ∧ t.inbox = q ∧
        t.responses = s.responses ++ List.replicate ((assemble (.hash64 bytes)).length - 1) .done ++
          [.digest64 (keyedHash64 s.consts 0 0 bytes)]) ∧
    (s.phase ≠ .faulted → s.inbox = assemble (.hash128 bytes) ++ q →
      ∃ t, s.runSteps (assemble (.hash128 bytes)).length = .next t ∧ t.phase = .finalized ∧ t.inbox = q ∧
        t.responses = s.responses ++ List.replicate ((assemble (.hash128 bytes)).length - 1) .done ++
          [.digest128 (keyedHash128 s.consts 0 0 bytes).1 (keyedHash128 s.consts 0 0 bytes).2]) ∧
    (∀ l : AsmLine, l = .hash64 bytes ∨ l = .hash128 bytes → s.phase = .faulted → s.inbox = assemble l ++ q →
      s.runSteps (assemble l).length = .next { s with
        inbox := q
        responses := s.responses ++ List.replicate (assemble l).length (.fault .faulted) })

/-- 42_streaming_hasher.md R136, 30_encoding.md R80: UPDATE is carried by any sequence of beats whose payloads
concatenate to the bytes; each beat is answered DONE. -/
def Obligations.AnyBeatsCarryAnUpdate : Prop :=
  ∀ (beats : List (List Byte)) (s : State) (q : List Event),
    (∀ b ∈ beats, b.length ≤ 8) → s.phase = .absorbing → s.zeroAboveLive →
    s.inbox = presentAll (beats.map .absorb) ++ q →
    s.runSteps beats.length = .next { update beats.flatten s with
      inbox := q
      responses := s.responses ++ List.replicate beats.length .done }

/-- 30_encoding.md R80: the canonical expansion of UPDATE: full beats of 8 bytes and one shorter last beat, `ceil(n / 8)`
of them and one for the empty sequence. -/
def Obligations.UpdateExpandsToFullBeats : Prop :=
  ∀ bytes : List Byte, ∃ beats : List (List Byte),
    expandUpdate bytes = beats.map .absorb ∧ beats.flatten = bytes ∧
    beats.length = max 1 ((bytes.length + 7) / 8) ∧
    (∀ b ∈ beats.dropLast, b.length = 8) ∧
    ∀ b, beats.getLast? = some b →
      b.length = if bytes ≠ [] ∧ bytes.length % 8 = 0 then 8 else bytes.length % 8

/-! ### Faults (60_exceptions.md) -/

/-- 60_exceptions.md R200: the complete transition table of `phase` with the response of each cell, and the reset event. -/
def Obligations.PhaseTableIsComplete : Prop :=
  (∀ (s : State) (w : CmdWord) (q : List Event), s.inbox = .command w :: q →
    ∃ t r, step s = .next t ∧ t.responses = s.responses ++ [r] ∧
      match s.phase, decode w with
      | .faulted, _ => t.phase = .faulted ∧ r = .fault .faulted
      | _, .illegal _ => t.phase = .faulted ∧ r = .fault .illegalCommand
      | _, .command (.construct _ _) => t.phase = .absorbing ∧ r = .done
      | .empty, .command _ => t.phase = .faulted ∧ r = .fault .noInstance
      | .absorbing, .command (.absorb _) => t.phase = .absorbing ∧ r = .done
      | .absorbing, .command .digest64 => t.phase = .finalized ∧ ∃ d, r = .digest64 d
      | .absorbing, .command .digest128 => t.phase = .finalized ∧ ∃ lo hi, r = .digest128 lo hi
      | .finalized, .command (.absorb _) => t.phase = .faulted ∧ r = .fault .updateAfterFinalize
      | .finalized, .command _ => t.phase = .faulted ∧ r = .fault .finalizeTwice) ∧
  ∀ (s : State) (q : List Event), s.inbox = .reset :: q → ∃ t, step s = .next t ∧ t.phase = .empty

/-- 60_exceptions.md R203: a command that faults writes the phase and its response and nothing else. -/
def Obligations.AFaultWritesOnlyThePhase : Prop :=
  ∀ (s t : State) (w : CmdWord) (q : List Event) (c : Cause),
    s.inbox = .command w :: q → step s = .next t → t.responses = s.responses ++ [.fault c] →
    t = { s with phase := .faulted, inbox := q, responses := s.responses ++ [.fault c] }

/-- 60_exceptions.md R201, R202, R207: which commands fault, and the code they report, in the order of the tests. -/
def Obligations.FaultsFollowThePriorityOrder : Prop :=
  ∀ (s t : State) (w : CmdWord) (q : List Event), s.inbox = .command w :: q → step s = .next t →
    ((∃ c, t.responses = s.responses ++ [.fault c]) ↔
      s.phase = .faulted ∨ (∃ why, decode w = .illegal why) ∨
        (s.phase ≠ .absorbing ∧ ∀ k0 k1, decode w ≠ .command (.construct k0 k1))) ∧
    ∀ c, t.responses = s.responses ++ [.fault c] →
      (s.phase = .faulted → c.code = 5) ∧
      (s.phase ≠ .faulted → (∃ why, decode w = .illegal why) → c.code = 4) ∧
      (s.phase = .empty → (∃ i, decode w = .command i) → c.code = 3) ∧
      (s.phase = .finalized → (∃ bytes, decode w = .command (.absorb bytes)) → c.code = 1) ∧
      (s.phase = .finalized → (decode w = .command .digest64 ∨ decode w = .command .digest128) → c.code = 2)

/-- 60_exceptions.md R204: in FAULTED every word responds FAULT(5) and changes nothing, any number of times, and only the
reset event leaves FAULTED. -/
def Obligations.FaultedIsStickyUntilReset : Prop :=
  (∀ (ws : List CmdWord) (s : State) (q : List Event), s.phase = .faulted →
    s.inbox = ws.map .command ++ q →
    s.runSteps ws.length = .next { s with
      inbox := q
      responses := s.responses ++ List.replicate ws.length (.fault .faulted) }) ∧
  ∀ s t : State, s.phase = .faulted → step s = .next t → t.phase ≠ .faulted →
    ∃ q, s.inbox = .reset :: q ∧ t.phase = .empty

/-! ### The machine as a whole (10_state.md, 20_memory.md, 70_reset_and_hazards.md) -/

/-- When the next event is a command word that decodes to a command, the step is that command's meaning on the state with
the word consumed (10_state.md R21, 30_encoding.md R77); so for the word the encoder makes of any well-formed command. -/
def Obligations.StepRunsTheDecodedCommand : Prop :=
  (∀ (s : State) (w : CmdWord) (q : List Event) (i : Instr),
    s.inbox = .command w :: q → decode w = .command i → step s = exec i { s with inbox := q }) ∧
  ∀ (s : State) (q : List Event) (i : Instr),
    s.inbox = .command (encode i) :: q → i.wf = true → step s = exec i { s with inbox := q }

/-- Every step answers a next state: the block answers every word in every phase and never stops
(60_exceptions.md R206, 70_reset_and_hazards.md R236, R243; log 10). -/
def Obligations.EveryStepAnswersANextState : Prop :=
  (∀ s : State, ∃ t, step s = .next t) ∧ ∀ (i : Instr) (s : State), ∃ t, exec i s = .next t

/-- 20_memory.md R59, 70_reset_and_hazards.md R238: events are consumed strictly in the order presented and responses are
returned in command order. However the events to come are split, as many steps as the first part has events consume
exactly that part and add, after all earlier responses, one for each command of it and none for a reset; the next event,
if it is a command, then adds its own response behind those. With no event left the block waits (the model's choice,
log 6). -/
def Obligations.EveryCommandGetsOneResponseInOrder : Prop :=
  (∀ (s : State) (es q : List Event), s.inbox = es ++ q →
    ∃ t rs, s.runSteps es.length = .next t ∧ t.inbox = q ∧ t.responses = s.responses ++ rs ∧
      rs.length = es.countP Event.isCommand ∧
      ∀ (e : Event) (q' : List Event), q = e :: q' →
        ∃ u, step t = .next u ∧ s.runSteps (es.length + 1) = .next u ∧ u.inbox = q' ∧
          match e with
          | .command w => ∃ r, u.responses = s.responses ++ rs ++ [r] ∧
              ∀ i, decode w = .command i → exec i { t with inbox := q' } = .next u
          | .reset => u.responses = s.responses ++ rs) ∧
  ∀ s : State, s.inbox = [] → step s = .next s

/-- 70_reset_and_hazards.md R230: the reset event in any phase, FAULTED among them, that it is the only exit from FAULTED,
and that two resets in a row are one as far as any state element holds a value. -/
def Obligations.ResetEmptiesTheBlock : Prop :=
  (∀ (s : State) (q : List Event), s.inbox = .reset :: q →
    ∃ t, step s = .next t ∧ t.phase = .empty ∧ t.inbox = q ∧ t.responses = s.responses) ∧
  (∀ s t : State, s.phase = .faulted → step s = .next t → (∀ q, s.inbox ≠ .reset :: q) → t.phase = .faulted) ∧
  ∀ (s u : State) (q : List Event), s.inbox = .reset :: q → u = { s with inbox := .reset :: .reset :: q } →
    ∃ t v, s.runSteps 1 = .next t ∧ u.runSteps 2 = .next v ∧ t.Indistinguishable v

/-- 10_state.md R38: the phase and the flag after reset, and every element after the first CONSTRUCT, for any constants
`C0..C3`. -/
def Obligations.ResetStateIsEmpty : Prop :=
  State.reset.phase = .empty ∧ State.reset.finalized = false ∧
  ∀ (c : Config.InitConstants) (k0 k1 : Word),
    ∃ t, exec (.construct k0 k1) (State.reset.withConstants c) = .next t ∧ t.phase = .absorbing ∧ t.finalized = false ∧
      t.lanes.v0 = c.c0 ^^^ k0 ∧ t.lanes.v1 = c.c1 ^^^ k1 ∧ t.lanes.v2 = c.c2 ^^^ k0 ∧ t.lanes.v3 = c.c3 ^^^ k1 ∧
      t.cnt = 0 ∧ t.pending = 0

/-- The invariant holds right after reset. -/
def Obligations.InvariantHoldsAtReset : Prop := State.reset.Inv

/-- 10_state.md R30, 43_finalization_digest.md R160: every step keeps the invariant: in ABSORBING every byte of `pending`
at index `cnt mod 8` and above is zero; in FINALIZED `pending` holds the final word of the counter. -/
def Obligations.StepKeepsTheInvariant : Prop :=
  ∀ s t : State, s.Inv → step s = .next t → t.Inv

/-- 10_state.md R28, R36, R37, 70_reset_and_hazards.md R243: what no host can see. Two states that differ only in the
lanes, counter and buffer of a block without a live instance, or in bits 8 and above of the counter, give the same
responses for every list of events, for any number of steps. -/
def Obligations.HiddenRegistersNeverShow : Prop :=
  ∀ (s t : State) (k : Nat), s.Indistinguishable t →
    ∃ s' t', s.runSteps k = .next s' ∧ t.runSteps k = .next t' ∧ s'.Indistinguishable t'

/-- 10_state.md R25: the `finalized` flag is set by a digest command alone, and leaves by CONSTRUCT, by reset, or by the
fault of 60_exceptions.md R200, whose phase FAULTED is not FINALIZED (log 8). -/
def Obligations.FinalizedIsSetByDigestsAlone : Prop :=
  ∀ s t : State, step s = .next t →
    (s.finalized = false → t.finalized = true →
      s.phase = .absorbing ∧ ∃ w q, s.inbox = .command w :: q ∧
        (decode w = .command .digest64 ∨ decode w = .command .digest128)) ∧
    (s.finalized = true → t.finalized = false →
      (∃ q, s.inbox = .reset :: q) ∨
      (∃ w q k0 k1, s.inbox = .command w :: q ∧ decode w = .command (.construct k0 k1)) ∨
      ∃ c, t.phase = .faulted ∧ t.responses = s.responses ++ [.fault c])

/-- 10_state.md R23, 41_block_mixer.md R121: who writes the lanes. A command leaves them, or writes them as its rule says:
CONSTRUCT with the key, ABSORB and the digest commands through INJECT, at most one word a command. -/
def Obligations.LanesChangeOnlyByTheirWriters : Prop :=
  ∀ (s t : State) (w : CmdWord) (q : List Event), s.inbox = .command w :: q → step s = .next t →
    t.lanes = s.lanes ∨
    match decode w with
    | .illegal _ => False
    | .command (.construct k0 k1) => t.lanes = keyedLanes s.consts k0 k1
    | .command (.absorb _) => ∃ m, t.lanes = inject s.lanes m
    | .command .digest64 => ∃ m, t.lanes = finishLanes (inject s.lanes m)
    | .command .digest128 => ∃ m, t.lanes = finishLanes (inject s.lanes m)

/-- The frame of every command, faulting or not (10_state.md R26, R29; 60_exceptions.md R203): the host's events, the
draws and the constants stay, one response is added; ABSORB that does not complete a word leaves the lanes; a digest command leaves the
counter. -/
def Obligations.CommandsLeaveTheRestUnchanged : Prop :=
  ∀ (i : Instr) (s t : State), exec i s = .next t →
    t.inbox = s.inbox ∧ t.draws = s.draws ∧ t.consts = s.consts ∧ (∃ r, t.responses = s.responses ++ [r]) ∧
    (s.phase ≠ .absorbing → (∀ k0 k1, i ≠ .construct k0 k1) →
      t.lanes = s.lanes ∧ t.cnt = s.cnt ∧ t.pending = s.pending) ∧
    match i with
    | .construct _ _ => s.phase = .faulted → t.lanes = s.lanes ∧ t.cnt = s.cnt ∧ t.pending = s.pending
    | .absorb bytes => s.phase = .absorbing →
        t.phase = s.phase ∧ (s.cnt.toNat % 8 + bytes.length < 8 → t.lanes = s.lanes)
    | .digest64 => t.cnt = s.cnt
    | .digest128 => t.cnt = s.cnt

/-- 20_memory.md R62: separate blocks share nothing. A step of one block leaves every other as it is, depends on no
other, and the steps of two blocks may be taken in either order. -/
def Obligations.BlocksShareNothing : Prop :=
  (∀ (n : Nat) (blocks blocks' : Vector State n) (i : Fin n), stepBlock blocks i = .next blocks' →
    step blocks[i] = .next blocks'[i] ∧ ∀ j : Fin n, j ≠ i → blocks'[j] = blocks[j]) ∧
  ∀ (n : Nat) (blocks a ab : Vector State n) (i j : Fin n), i ≠ j →
    stepBlock blocks i = .next a → stepBlock a j = .next ab →
    ∃ b, stepBlock blocks j = .next b ∧ stepBlock b i = .next ab

/-! ### The constants `C0..C3` and the idle port -/

/-- 00_scope.md R9: `C0..C3` are parameters. No step and no command writes them, CONSTRUCT alone reads them, and for every
four words a block built with them and fresh from reset answers any session with the hash over exactly those words. That
the parameters stand in the state is the model's choice, log 16. -/
def Obligations.ConstantsAreParameters : Prop :=
  (∀ s t : State, step s = .next t → t.consts = s.consts) ∧
  (∀ (i : Instr) (s t : State), exec i s = .next t → t.consts = s.consts) ∧
  (∀ (i : Instr) (s t : State) (c : Config.InitConstants), (∀ k0 k1, i ≠ .construct k0 k1) → exec i s = .next t →
    exec i (s.withConstants c) = .next (t.withConstants c)) ∧
  ∀ (c : Config.InitConstants) (u : Session), u.wf = true →
    ∃ t, ((State.reset.withConstants c).present (presentAll u.commands)).runSteps u.commands.length = .next t ∧
      t.responses = u.responses c ∧ t.consts = c

/-- The model's own fields at reset: nothing is presented (log 4) and nothing answered (log 5), and the constants are the
four defaults of 00_scope.md R9, which are PRESUMED (log 1). -/
def Obligations.ResetPortIsIdleWithTheDefaultConstants : Prop :=
  State.reset.inbox = [] ∧ State.reset.responses = [] ∧
  State.reset.consts.c0 = 0x736f6d6570736575 ∧ State.reset.consts.c1 = 0x646f72616e646f6d ∧
  State.reset.consts.c2 = 0x6c7967656e657261 ∧ State.reset.consts.c3 = 0x7465646279746573
end

