-- ==== Sys2Proof/Laws/Bytes.lean ====
section
/-! SUPPORT. The byte view of a word (00_scope.md R12): which bits and which bytes `byteAt`, `setByte`, `le64` and
`bytesLe` give, and when the bytes from an index on are zero. -/

namespace Sys2Proof

theorem byteAt_getLsbD (w : Word) (i k : Nat) :
    (byteAt w i).getLsbD k = (decide (k < 8) && w.getLsbD (8 * i + k)) := by
  simp [byteAt]

theorem setByte_getLsbD (w : Word) (i : Nat) (b : Byte) (k : Nat) (hk : k < 64) :
    (setByte w i b).getLsbD k = if k / 8 = i then b.getLsbD (k % 8) else w.getLsbD k := by
  have h255 : ∀ j : Nat, (0xff : Word).getLsbD j = decide (j < 8) := by
    intro j
    by_cases hj : j < 64
    · have : ∀ j : Fin 64, (0xff : Word).getLsbD j = decide (j.val < 8) := by decide
      exact this ⟨j, hj⟩
    · rw [BitVec.getLsbD_of_ge _ _ (by omega)]; simp; omega
  simp only [setByte, BitVec.getLsbD_or, BitVec.getLsbD_and, BitVec.getLsbD_not, BitVec.getLsbD_shiftLeft,
    BitVec.getLsbD_setWidth, h255]
  split
  · next h =>
    subst h
    have e : k - 8 * (k / 8) = k % 8 := by omega
    have : ¬ k < 8 * (k / 8) := by omega
    have h3 : k % 8 < 8 := by omega
    have h4 : k % 8 < 64 := by omega
    simp only [hk, e, this, h3, h4, decide_true, decide_false, Bool.not_true, Bool.not_false, Bool.and_true, Bool.true_and, Bool.and_false, Bool.false_or]
  · next h =>
    by_cases h1 : k < 8 * i
    · simp only [hk, h1, decide_true, Bool.not_true, Bool.not_false, Bool.and_false, Bool.false_and, Bool.and_true, Bool.or_false]
    · have h2 : ¬ (k - 8 * i < 8) := by omega
      rw [b.getLsbD_of_ge _ (by omega : 8 ≤ k - 8 * i)]
      simp only [hk, h1, h2, decide_true, decide_false, Bool.not_false, Bool.and_false, Bool.and_true, Bool.or_false]

theorem byteAt_setByte (w : Word) (i j : Nat) (b : Byte) (hj : j < 8) :
    byteAt (setByte w i b) j = if j = i then b else byteAt w j := by
  apply BitVec.eq_of_getLsbD_eq
  intro k hk
  rw [byteAt_getLsbD, setByte_getLsbD _ _ _ _ (by omega)]
  have e1 : (8 * j + k) / 8 = j := by omega
  have e2 : (8 * j + k) % 8 = k := by omega
  simp only [e1, e2]
  split
  · simp only [hk, decide_true, Bool.true_and]
  · rw [byteAt_getLsbD]

theorem word_ext_bytes (w w' : Word) (h : ∀ i, i < 8 → byteAt w i = byteAt w' i) : w = w' := by
  apply BitVec.eq_of_getLsbD_eq
  intro k hk
  have := congrArg (·.getLsbD (k % 8)) (h (k / 8) (by omega))
  have h8 : k % 8 < 8 := by omega
  have e : 8 * (k / 8) + k % 8 = k := by omega
  simpa only [byteAt_getLsbD, h8, e, decide_true, Bool.true_and] using this

theorem le64_getLsbD (bs : List Byte) (k : Nat) (hk : k < 64) :
    (le64 bs).getLsbD k = (bs.getD (k / 8) 0).getLsbD (k % 8) := by
  induction bs generalizing k with
  | nil => simp [le64]
  | cons b bs ih =>
    have hz : b.setWidth 64 &&& (le64 bs <<< 8) = 0 := by
      apply BitVec.eq_of_getLsbD_eq
      intro j hj
      by_cases h : j < 8
      · simp [h]
      · simp [b.getLsbD_of_ge _ (by omega : 8 ≤ j)]
    rw [le64, BitVec.add_eq_or_of_and_eq_zero _ _ hz]
    simp only [BitVec.getLsbD_or, BitVec.getLsbD_setWidth, BitVec.getLsbD_shiftLeft]
    by_cases h : k < 8
    · have e1 : k / 8 = 0 := by omega
      have e2 : k % 8 = k := by omega
      simp [h, hk, e1, e2]
    · obtain ⟨m, hm⟩ : ∃ m, k / 8 = m + 1 := ⟨k / 8 - 1, by omega⟩
      have e1 : (k - 8) / 8 = m := by omega
      have e2 : (k - 8) % 8 = k % 8 := by omega
      rw [ih _ (by omega), b.getLsbD_of_ge _ (by omega : 8 ≤ k), e1, e2, hm]
      simp [h, hk]

theorem byteAt_le64 (bs : List Byte) (i : Nat) (hi : i < 8) : byteAt (le64 bs) i = bs.getD i 0 := by
  apply BitVec.eq_of_getLsbD_eq
  intro k hk
  rw [byteAt_getLsbD, le64_getLsbD _ _ (by omega)]
  have e1 : (8 * i + k) / 8 = i := by omega
  have e2 : (8 * i + k) % 8 = k := by omega
  simp [hk, e1, e2]

theorem getElem?_bytesLe (w : Word) (i : Nat) (hi : i < 8) : (bytesLe w)[i]? = some (byteAt w i) := by
  have : i = 0 ∨ i = 1 ∨ i = 2 ∨ i = 3 ∨ i = 4 ∨ i = 5 ∨ i = 6 ∨ i = 7 := by omega
  rcases this with h|h|h|h|h|h|h|h <;> subst h <;> rfl

@[simp] theorem length_bytesLe (w : Word) : (bytesLe w).length = 8 := rfl

theorem le64_bytesLe (w : Word) : le64 (bytesLe w) = w := by
  apply word_ext_bytes
  intro i hi
  rw [byteAt_le64 _ _ hi, List.getD_eq_getElem?_getD, getElem?_bytesLe _ _ hi]
  rfl

theorem bytesLe_le64 (bs : List Byte) (h : bs.length = 8) : bytesLe (le64 bs) = bs := by
  apply List.ext_getElem?
  intro i
  by_cases hi : i < 8
  · rw [getElem?_bytesLe _ _ hi, byteAt_le64 _ _ hi, List.getD_eq_getElem?_getD, List.getElem?_eq_getElem (by omega)]
    simp
  · rw [List.getElem?_eq_none (by simp; omega), List.getElem?_eq_none (by omega)]

/-- A value has zero bytes from index `r` on exactly when it is below `2^(8r)`. -/
theorem byteAt_of_div_eq_zero (w : Word) (r i : Nat) (h : w.toNat / 2 ^ (8 * r) = 0) (hi : r ≤ i) : byteAt w i = 0 := by
  apply BitVec.eq_of_getLsbD_eq
  intro k hk
  simp only [byteAt_getLsbD, hk, decide_true, Bool.true_and]
  rw [Nat.div_eq_zero_iff] at h
  have h' : w.toNat < 2 ^ (8 * r) := by rcases h with h | h; · simp at h
                                        exact h
  rw [← BitVec.testBit_toNat, Nat.testBit_lt_two_pow (Nat.lt_of_lt_of_le h' (Nat.pow_le_pow_right (by omega) (by omega)))]
  simp

theorem div_eq_zero_of_byteAt (w : Word) (r : Nat) (h : ∀ i, r ≤ i → i < 8 → byteAt w i = 0) :
    w.toNat / 2 ^ (8 * r) = 0 := by
  rw [Nat.div_eq_zero_iff]
  right
  refine Nat.lt_of_not_le fun hle => ?_
  obtain ⟨k, hk, hb⟩ := Nat.exists_ge_and_testBit_of_ge_two_pow hle
  rw [BitVec.testBit_toNat] at hb
  have hk64 : k < 64 := by
    refine Nat.lt_of_not_le fun hge => ?_
    rw [BitVec.getLsbD_of_ge _ _ hge] at hb
    exact Bool.noConfusion hb
  have := congrArg (·.getLsbD (k % 8)) (h (k / 8) (by omega) (by omega))
  have h8 : k % 8 < 8 := by omega
  have e : 8 * (k / 8) + k % 8 = k := by omega
  simp only [byteAt_getLsbD, h8, e, hb, decide_true, Bool.true_and] at this
  simp at this
end Sys2Proof
end

