-- ==== Sys2Proof/Laws/Encoding.lean ====
section
/-! SUPPORT. The fields of a command word put together from fields (30_encoding.md R71), and when two words are equal. -/

namespace Sys2Proof

@[simp] theorem op_ofFields (op len : BitVec 4) (a b : Word) : (CmdWord.ofFields op len a b).op = op := by
  apply BitVec.eq_of_getLsbD_eq
  intro k hk
  simp only [CmdWord.op, CmdWord.ofFields, BitVec.getLsbD_extractLsb', BitVec.getLsbD_append]
  simp [hk]

@[simp] theorem len_ofFields (op len : BitVec 4) (a b : Word) : (CmdWord.ofFields op len a b).len = len := by
  apply BitVec.eq_of_getLsbD_eq
  intro k hk
  simp only [CmdWord.len, CmdWord.ofFields, BitVec.getLsbD_extractLsb', BitVec.getLsbD_append]
  simp [hk]

@[simp] theorem a_ofFields (op len : BitVec 4) (a b : Word) : (CmdWord.ofFields op len a b).a = a := by
  apply BitVec.eq_of_getLsbD_eq
  intro k hk
  have h1 : ¬ 8 + k < 4 := by omega
  have h2 : ¬ 8 + k - 4 < 4 := by omega
  have h3 : 8 + k - 4 - 4 < 64 := by omega
  have h4 : 8 + k - 4 - 4 = k := by omega
  simp only [CmdWord.a, CmdWord.ofFields, BitVec.getLsbD_extractLsb', BitVec.getLsbD_append]
  simp [h1, h2, h4, hk]

@[simp] theorem b_ofFields (op len : BitVec 4) (a b : Word) : (CmdWord.ofFields op len a b).b = b := by
  apply BitVec.eq_of_getLsbD_eq
  intro k hk
  have h1 : ¬ 72 + k < 4 := by omega
  have h2 : ¬ 72 + k - 4 < 4 := by omega
  have h3 : ¬ 72 + k - 4 - 4 < 64 := by omega
  have h4 : 72 + k - 4 - 4 - 64 = k := by omega
  simp only [CmdWord.b, CmdWord.ofFields, BitVec.getLsbD_extractLsb', BitVec.getLsbD_append]
  simp [h1, h2, h3, h4, hk]

/-- A command word is its four fields. -/
theorem ofFields_fields (w : CmdWord) : CmdWord.ofFields w.op w.len w.a w.b = w := by
  apply BitVec.eq_of_getLsbD_eq
  intro k hk
  simp only [CmdWord.ofFields, BitVec.getLsbD_append, CmdWord.op, CmdWord.len, CmdWord.a, CmdWord.b,
    BitVec.getLsbD_extractLsb']
  by_cases h1 : k < 4
  · simp [h1]
  · by_cases h2 : k < 8
    · have : k - 4 < 4 := by omega
      have e : 4 + (k - 4) = k := by omega
      simp [h1, this, e]
    · have h3 : ¬ k - 4 < 4 := by omega
      by_cases h4 : k < 72
      · have h5 : k - 4 - 4 < 64 := by omega
        have e : 8 + (k - 4 - 4) = k := by omega
        simp [h1, h3, h5, e]
      · have h5 : ¬ k - 4 - 4 < 64 := by omega
        have h6 : k - 4 - 4 - 64 < 64 := by omega
        have e : 72 + (k - 4 - 4 - 64) = k := by omega
        simp [h1, h3, h5, h6, e]

theorem cmdWord_ext {w w' : CmdWord} (ho : w.op = w'.op) (hl : w.len = w'.len) (ha : w.a = w'.a) (hb : w.b = w'.b) :
    w = w' := by
  rw [← ofFields_fields w, ← ofFields_fields w', ho, hl, ha, hb]

/-! ### The decoder, one lemma for each opcode (30_encoding.md R75) -/

theorem op_eq_iff (w : CmdWord) (n : Nat) (hn : n < 16) : w.op = BitVec.ofNat 4 n ↔ w.op.toNat = n := by
  constructor
  · intro h; rw [h]; simp; omega
  · intro h; apply BitVec.eq_of_toNat_eq; rw [h]; simp; omega

theorem op_cases (w : CmdWord) :
    (w.op.toNat = 0 ∨ 5 ≤ w.op.toNat) ∨ w.op.toNat = 1 ∨ w.op.toNat = 2 ∨ w.op.toNat = 3 ∨ w.op.toNat = 4 := by
  omega

theorem decode_reserved (w : CmdWord) (h : w.op.toNat = 0 ∨ 5 ≤ w.op.toNat) :
    decode w = .illegal .reservedOpcode := by
  unfold decode; split <;> first | omega | rfl

theorem decode_op_one (w : CmdWord) (h : w.op.toNat = 1) :
    decode w = if w.len = 0 then .command (.construct w.a w.b) else .illegal .constructLenNotZero := by
  simp only [decode, h]

theorem decode_op_two (w : CmdWord) (h : w.op.toNat = 2) :
    decode w = if 8 < w.len.toNat then .illegal .absorbLenAboveEight
      else if w.b = 0 then .command (.absorb (beatBytes w.a w.len.toNat)) else .illegal .absorbBNotZero := by
  simp only [decode, h]

theorem decode_op_three (w : CmdWord) (h : w.op.toNat = 3) : decode w = decodeNoOperand w .digest64 := by
  simp only [decode, h]

theorem decode_op_four (w : CmdWord) (h : w.op.toNat = 4) : decode w = decodeNoOperand w .digest128 := by
  simp only [decode, h]

/-- The bytes of a beat are as many as `len` says, up to eight (30_encoding.md R74). -/
theorem length_beatBytes (a : Word) (n : Nat) (h : n ≤ 8) : (beatBytes a n).length = n := by
  simp [beatBytes]; omega

theorem getElem?_beatBytes (a : Word) (n i : Nat) (hn : n ≤ 8) (hi : i < n) :
    (beatBytes a n)[i]? = some (byteAt a i) := by
  rw [beatBytes, List.getElem?_take, if_pos hi, getElem?_bytesLe _ _ (by omega)]

end Sys2Proof
end

