-- ==== Sys2Proof/Laws/PerInstr.lean ====
section
/-! SUPPORT. Facts about every command as syntax, one lemma for each constructor. -/

namespace Sys2Proof.Laws.OpcodeField

/-- The encoding carries the command's opcode in `CMD[3:0]` and, for all but ABSORB, a zero `len` (30_encoding.md
R72, R75). -/
def Statement (i : Instr) : Prop :=
  (encode i).op = i.opcode ∧ ((encode i).len = 0 ∨ ∃ bytes, i = .absorb bytes)

theorem construct (k0 k1 : Word) : Statement (.construct k0 k1) := by
  simp [Statement, encode, Instr.opcode]

theorem absorb (bytes : List Byte) : Statement (.absorb bytes) := by
  simp [Statement, encode, Instr.opcode]

theorem digest64 : Statement .digest64 := by
  simp [Statement, encode, Instr.opcode]

theorem digest128 : Statement .digest128 := by
  simp [Statement, encode, Instr.opcode]

end Sys2Proof.Laws.OpcodeField
end

