-- ==== Sys2Proof/Laws/Round.lean ====
section
/-! SUPPORT. The lane arithmetic against the library's own operations (40_round_function.md R100 to R102), and what
undoes each of them. -/

namespace Sys2Proof.Machine

theorem add64_eq (a b : Word) : add64 a b = a + b := rfl

theorem xor64_eq (a b : Word) : xor64 a b = a ^^^ b := rfl

theorem rotl64_getLsbD (x : Word) (n i : Nat) (h0 : 0 < n) (hn : n < 64) (hi : i < 64) :
    (rotl64 x n).getLsbD i = if i < n then x.getLsbD (64 - n + i) else x.getLsbD (i - n) := by
  have hz : (x <<< n) &&& (x >>> (64 - n)) = 0 := by
    apply BitVec.eq_of_getLsbD_eq
    intro j hj
    by_cases h : j < n
    · simp [h]
    · simp only [BitVec.getLsbD_and, BitVec.getLsbD_ushiftRight, x.getLsbD_of_ge _ (by omega : 64 ≤ 64 - n + j)]
      simp
  rw [rotl64, BitVec.add_eq_or_of_and_eq_zero _ _ hz, BitVec.getLsbD_or, BitVec.getLsbD_shiftLeft,
    BitVec.getLsbD_ushiftRight]
  split
  · next h => simp [h]
  · next h => rw [x.getLsbD_of_ge _ (by omega : 64 ≤ 64 - n + i)]; simp only [hi, h, decide_true, decide_false,
      Bool.not_false, Bool.and_true, Bool.true_and, Bool.or_false]

/-- The rotation of 40_round_function.md R101 is the library's rotation. -/
theorem rotl64_eq_rotateLeft (x : Word) (n : Nat) (h0 : 0 < n) (hn : n < 64) : rotl64 x n = x.rotateLeft n := by
  apply BitVec.eq_of_getLsbD_eq
  intro i hi
  rw [rotl64_getLsbD x n i h0 hn hi, BitVec.getLsbD_rotateLeft]
  have e : n % 64 = n := Nat.mod_eq_of_lt hn
  rw [e]
  by_cases h : i < n
  · simp [h]
  · simp [h, hi]

/-- A rotation is undone by the rotation with the complementary amount (40_round_function.md R106). -/
theorem rotl64_rotl64_cancel (x : Word) (n m : Nat) (h0 : 0 < n) (hm : 0 < m) (h : n + m = 64) :
    rotl64 (rotl64 x n) m = x := by
  apply BitVec.eq_of_getLsbD_eq
  intro i hi
  rw [rotl64_getLsbD _ m i hm (by omega) hi]
  split
  · rw [rotl64_getLsbD _ n _ h0 (by omega) (by omega), if_neg (by omega)]
    congr 1; omega
  · rw [rotl64_getLsbD _ n _ h0 (by omega) (by omega), if_pos (by omega)]
    congr 1; omega

theorem xor64_xor64_cancel (a b : Word) : xor64 (xor64 a b) b = a := by
  simp [xor64]

theorem add64_sub_cancel (a b : Word) : add64 a b - b = a := by
  simp [add64]

theorem sub_add64_cancel (a b : Word) : add64 (a - b) b = a := by
  simp [add64]

theorem sipRounds_two (v : Lanes) : sipRounds cRounds v = sipRound (sipRound v) := rfl

theorem sipRounds_four (v : Lanes) : sipRounds dRounds v = sipRound (sipRound (sipRound (sipRound v))) := rfl

end Sys2Proof.Machine
end

