-- ==== Sys2Proof/Laws/State.lean ====
section
/-! SUPPORT. What each write of the state leaves in each field, so that no proof unfolds a record update. -/

namespace Sys2Proof.Machine

variable (s : State)

@[simp] theorem State.setLanes_phase (v : Lanes) : (s.setLanes v).phase = s.phase := rfl
@[simp] theorem State.setLanes_lanes (v : Lanes) : (s.setLanes v).lanes = v := rfl
@[simp] theorem State.setLanes_cnt (v : Lanes) : (s.setLanes v).cnt = s.cnt := rfl
@[simp] theorem State.setLanes_pending (v : Lanes) : (s.setLanes v).pending = s.pending := rfl
@[simp] theorem State.setLanes_inbox (v : Lanes) : (s.setLanes v).inbox = s.inbox := rfl
@[simp] theorem State.setLanes_responses (v : Lanes) : (s.setLanes v).responses = s.responses := rfl
@[simp] theorem State.setLanes_draws (v : Lanes) : (s.setLanes v).draws = s.draws := rfl
@[simp] theorem State.setLanes_consts (v : Lanes) : (s.setLanes v).consts = s.consts := rfl
@[simp] theorem State.setLanes_fill (v : Lanes) : (s.setLanes v).fill = s.fill := rfl

@[simp] theorem State.setCnt_phase (n : Count) : (s.setCnt n).phase = s.phase := rfl
@[simp] theorem State.setCnt_lanes (n : Count) : (s.setCnt n).lanes = s.lanes := rfl
@[simp] theorem State.setCnt_cnt (n : Count) : (s.setCnt n).cnt = n := rfl
@[simp] theorem State.setCnt_pending (n : Count) : (s.setCnt n).pending = s.pending := rfl
@[simp] theorem State.setCnt_inbox (n : Count) : (s.setCnt n).inbox = s.inbox := rfl
@[simp] theorem State.setCnt_responses (n : Count) : (s.setCnt n).responses = s.responses := rfl
@[simp] theorem State.setCnt_draws (n : Count) : (s.setCnt n).draws = s.draws := rfl
@[simp] theorem State.setCnt_consts (n : Count) : (s.setCnt n).consts = s.consts := rfl

@[simp] theorem State.setPending_phase (w : Word) : (s.setPending w).phase = s.phase := rfl
@[simp] theorem State.setPending_lanes (w : Word) : (s.setPending w).lanes = s.lanes := rfl
@[simp] theorem State.setPending_cnt (w : Word) : (s.setPending w).cnt = s.cnt := rfl
@[simp] theorem State.setPending_pending (w : Word) : (s.setPending w).pending = w := rfl
@[simp] theorem State.setPending_inbox (w : Word) : (s.setPending w).inbox = s.inbox := rfl
@[simp] theorem State.setPending_responses (w : Word) : (s.setPending w).responses = s.responses := rfl
@[simp] theorem State.setPending_draws (w : Word) : (s.setPending w).draws = s.draws := rfl
@[simp] theorem State.setPending_consts (w : Word) : (s.setPending w).consts = s.consts := rfl
@[simp] theorem State.setPending_fill (w : Word) : (s.setPending w).fill = s.fill := rfl

@[simp] theorem State.setPhase_phase (p : Phase) : (s.setPhase p).phase = p := rfl
@[simp] theorem State.setPhase_lanes (p : Phase) : (s.setPhase p).lanes = s.lanes := rfl
@[simp] theorem State.setPhase_cnt (p : Phase) : (s.setPhase p).cnt = s.cnt := rfl
@[simp] theorem State.setPhase_pending (p : Phase) : (s.setPhase p).pending = s.pending := rfl
@[simp] theorem State.setPhase_inbox (p : Phase) : (s.setPhase p).inbox = s.inbox := rfl
@[simp] theorem State.setPhase_responses (p : Phase) : (s.setPhase p).responses = s.responses := rfl
@[simp] theorem State.setPhase_draws (p : Phase) : (s.setPhase p).draws = s.draws := rfl
@[simp] theorem State.setPhase_consts (p : Phase) : (s.setPhase p).consts = s.consts := rfl
@[simp] theorem State.setPhase_fill (p : Phase) : (s.setPhase p).fill = s.fill := rfl

@[simp] theorem State.respond_phase (r : Response) : (s.respond r).phase = s.phase := rfl
@[simp] theorem State.respond_lanes (r : Response) : (s.respond r).lanes = s.lanes := rfl
@[simp] theorem State.respond_cnt (r : Response) : (s.respond r).cnt = s.cnt := rfl
@[simp] theorem State.respond_pending (r : Response) : (s.respond r).pending = s.pending := rfl
@[simp] theorem State.respond_inbox (r : Response) : (s.respond r).inbox = s.inbox := rfl
@[simp] theorem State.respond_responses (r : Response) : (s.respond r).responses = s.responses ++ [r] := rfl
@[simp] theorem State.respond_draws (r : Response) : (s.respond r).draws = s.draws := rfl
@[simp] theorem State.respond_consts (r : Response) : (s.respond r).consts = s.consts := rfl
@[simp] theorem State.respond_fill (r : Response) : (s.respond r).fill = s.fill := rfl

@[simp] theorem State.withInbox_phase (q : List Event) : (s.withInbox q).phase = s.phase := rfl
@[simp] theorem State.withInbox_lanes (q : List Event) : (s.withInbox q).lanes = s.lanes := rfl
@[simp] theorem State.withInbox_cnt (q : List Event) : (s.withInbox q).cnt = s.cnt := rfl
@[simp] theorem State.withInbox_pending (q : List Event) : (s.withInbox q).pending = s.pending := rfl
@[simp] theorem State.withInbox_inbox (q : List Event) : (s.withInbox q).inbox = q := rfl
@[simp] theorem State.withInbox_responses (q : List Event) : (s.withInbox q).responses = s.responses := rfl
@[simp] theorem State.withInbox_draws (q : List Event) : (s.withInbox q).draws = s.draws := rfl
@[simp] theorem State.withInbox_consts (q : List Event) : (s.withInbox q).consts = s.consts := rfl
@[simp] theorem State.withInbox_fill (q : List Event) : (s.withInbox q).fill = s.fill := rfl

@[simp] theorem State.present_phase (es : List Event) : (s.present es).phase = s.phase := rfl
@[simp] theorem State.present_lanes (es : List Event) : (s.present es).lanes = s.lanes := rfl
@[simp] theorem State.present_cnt (es : List Event) : (s.present es).cnt = s.cnt := rfl
@[simp] theorem State.present_pending (es : List Event) : (s.present es).pending = s.pending := rfl
@[simp] theorem State.present_inbox (es : List Event) : (s.present es).inbox = es ++ s.inbox := rfl
@[simp] theorem State.present_responses (es : List Event) : (s.present es).responses = s.responses := rfl
@[simp] theorem State.present_draws (es : List Event) : (s.present es).draws = s.draws := rfl
@[simp] theorem State.present_consts (es : List Event) : (s.present es).consts = s.consts := rfl
@[simp] theorem State.present_fill (es : List Event) : (s.present es).fill = s.fill := rfl

@[simp] theorem State.withConstants_phase (c : Config.InitConstants) : (s.withConstants c).phase = s.phase := rfl
@[simp] theorem State.withConstants_lanes (c : Config.InitConstants) : (s.withConstants c).lanes = s.lanes := rfl
@[simp] theorem State.withConstants_cnt (c : Config.InitConstants) : (s.withConstants c).cnt = s.cnt := rfl
@[simp] theorem State.withConstants_pending (c : Config.InitConstants) : (s.withConstants c).pending = s.pending := rfl
@[simp] theorem State.withConstants_inbox (c : Config.InitConstants) : (s.withConstants c).inbox = s.inbox := rfl
@[simp] theorem State.withConstants_responses (c : Config.InitConstants) : (s.withConstants c).responses = s.responses := rfl
@[simp] theorem State.withConstants_draws (c : Config.InitConstants) : (s.withConstants c).draws = s.draws := rfl
@[simp] theorem State.withConstants_consts (c : Config.InitConstants) : (s.withConstants c).consts = c := rfl
@[simp] theorem State.withConstants_fill (c : Config.InitConstants) : (s.withConstants c).fill = s.fill := rfl

@[simp] theorem State.raise_phase (c : Cause) : (s.raise c).phase = .faulted := rfl
@[simp] theorem State.raise_lanes (c : Cause) : (s.raise c).lanes = s.lanes := rfl
@[simp] theorem State.raise_cnt (c : Cause) : (s.raise c).cnt = s.cnt := rfl
@[simp] theorem State.raise_pending (c : Cause) : (s.raise c).pending = s.pending := rfl
@[simp] theorem State.raise_inbox (c : Cause) : (s.raise c).inbox = s.inbox := rfl
@[simp] theorem State.raise_responses (c : Cause) : (s.raise c).responses = s.responses ++ [.fault c] := rfl
@[simp] theorem State.raise_draws (c : Cause) : (s.raise c).draws = s.draws := rfl
@[simp] theorem State.raise_consts (c : Cause) : (s.raise c).consts = s.consts := rfl
@[simp] theorem State.raise_fill (c : Cause) : (s.raise c).fill = s.fill := rfl

@[simp] theorem State.injectPending_phase : (s.injectPending).phase = s.phase := rfl
@[simp] theorem State.injectPending_lanes : (s.injectPending).lanes = inject s.lanes s.pending := rfl
@[simp] theorem State.injectPending_cnt : (s.injectPending).cnt = s.cnt := rfl
@[simp] theorem State.injectPending_pending : (s.injectPending).pending = s.pending := rfl
@[simp] theorem State.injectPending_inbox : (s.injectPending).inbox = s.inbox := rfl
@[simp] theorem State.injectPending_responses : (s.injectPending).responses = s.responses := rfl
@[simp] theorem State.injectPending_draws : (s.injectPending).draws = s.draws := rfl
@[simp] theorem State.injectPending_consts : (s.injectPending).consts = s.consts := rfl
@[simp] theorem State.injectPending_fill : (s.injectPending).fill = s.fill := rfl

@[simp] theorem State.appendByte_phase (b : Byte) : (s.appendByte b).phase = s.phase := rfl
@[simp] theorem State.appendByte_lanes (b : Byte) : (s.appendByte b).lanes = s.lanes := rfl
@[simp] theorem State.appendByte_cnt (b : Byte) : (s.appendByte b).cnt = s.cnt + 1 := rfl
@[simp] theorem State.appendByte_pending (b : Byte) : (s.appendByte b).pending = setByte s.pending s.fill b := rfl
@[simp] theorem State.appendByte_inbox (b : Byte) : (s.appendByte b).inbox = s.inbox := rfl
@[simp] theorem State.appendByte_responses (b : Byte) : (s.appendByte b).responses = s.responses := rfl
@[simp] theorem State.appendByte_draws (b : Byte) : (s.appendByte b).draws = s.draws := rfl
@[simp] theorem State.appendByte_consts (b : Byte) : (s.appendByte b).consts = s.consts := rfl

/-! The operations that are not setters: what they leave, field by field. -/

@[simp] theorem finalize_phase : (finalize s).phase = .finalized := rfl
@[simp] theorem finalize_lanes : (finalize s).lanes = finishLanes (inject s.lanes (setByte s.pending 7 (s.cnt.setWidth 8))) := rfl
@[simp] theorem finalize_cnt : (finalize s).cnt = s.cnt := rfl
@[simp] theorem finalize_pending : (finalize s).pending = setByte s.pending 7 (s.cnt.setWidth 8) := rfl
@[simp] theorem finalize_inbox : (finalize s).inbox = s.inbox := rfl
@[simp] theorem finalize_responses : (finalize s).responses = s.responses := rfl
@[simp] theorem finalize_draws : (finalize s).draws = s.draws := rfl
@[simp] theorem finalize_consts : (finalize s).consts = s.consts := rfl

@[simp] theorem resetEvent_phase : (resetEvent s).phase = .empty := rfl
@[simp] theorem resetEvent_inbox : (resetEvent s).inbox = s.inbox := rfl
@[simp] theorem resetEvent_responses : (resetEvent s).responses = s.responses := rfl
@[simp] theorem resetEvent_consts : (resetEvent s).consts = s.consts := rfl

@[simp] theorem construct_phase (k0 k1 : Word) : (construct k0 k1 s).phase = .absorbing := rfl
@[simp] theorem construct_lanes (k0 k1 : Word) : (construct k0 k1 s).lanes = keyedLanes s.consts k0 k1 := rfl
@[simp] theorem construct_cnt (k0 k1 : Word) : (construct k0 k1 s).cnt = 0 := rfl
@[simp] theorem construct_pending (k0 k1 : Word) : (construct k0 k1 s).pending = 0 := rfl
@[simp] theorem construct_inbox (k0 k1 : Word) : (construct k0 k1 s).inbox = s.inbox := rfl
@[simp] theorem construct_responses (k0 k1 : Word) : (construct k0 k1 s).responses = s.responses ++ [.done] := rfl
@[simp] theorem construct_draws (k0 k1 : Word) : (construct k0 k1 s).draws = s.draws := rfl
@[simp] theorem construct_consts (k0 k1 : Word) : (construct k0 k1 s).consts = s.consts := rfl

/-- The counter's place in the buffer after one more byte (10_state.md R31). -/
theorem State.appendByte_fill (b : Byte) : (s.appendByte b).fill = (s.fill + 1) % 8 := by
  simp only [State.fill, State.appendByte_cnt, BitVec.toNat_add]
  change (s.cnt.toNat + 1) % 2 ^ 64 % 8 = _
  omega

theorem State.fill_lt : s.fill < 8 := Nat.mod_lt _ (by decide)

end Sys2Proof.Machine
end

