-- ==== Sys2Proof/Laws/Update.lean ====
section
/-! SUPPORT. UPDATE (42_streaming_hasher.md R133): each loop in closed form, then `update_eq`, `update_frame`,
`liveBytes_update` and `zeroAboveLive_update`, which say once everything it does. -/

namespace Sys2Proof.Machine

/-! ### The tail copy -/

theorem byteAt_copyTail (bs : List Byte) (j i : Nat) (w : Word) (hi : i < 8) :
    byteAt (copyTail j bs w) i = if j ≤ i ∧ i < j + bs.length then bs.getD (i - j) 0 else byteAt w i := by
  induction bs generalizing j w with
  | nil => simp only [copyTail, List.length_nil]; rw [if_neg (by omega)]
  | cons b bs ih =>
    rw [copyTail, ih, byteAt_setByte _ _ _ _ hi]
    by_cases h : i = j
    · subst h; simp
    · by_cases h1 : j ≤ i ∧ i < j + (b :: bs).length
      · rw [if_pos h1, if_pos (by simp at h1; omega)]
        obtain ⟨m, hm⟩ : ∃ m, i - j = m + 1 := ⟨i - j - 1, by omega⟩
        have : i - (j + 1) = m := by omega
        rw [hm, this, List.getD_cons_succ]
      · rw [if_neg h1, if_neg (by simp at h1; omega), if_neg h]

/-- Bytes copied to index `r` of a word whose bytes from `r` on are zero make the word of the two byte lists together. -/
theorem copyTail_le64 (as bs : List Byte) : copyTail as.length bs (le64 as) = le64 (as ++ bs) := by
  apply word_ext_bytes
  intro i hi
  rw [byteAt_copyTail _ _ _ _ hi, byteAt_le64 _ _ hi, byteAt_le64 _ _ hi]
  simp only [List.getD_eq_getElem?_getD, List.getElem?_append]
  split
  · next h => rw [if_neg (by omega)]
  · next h =>
    split
    · next h1 => rfl
    · next h1 =>
      rw [List.getElem?_eq_none (by omega), List.getElem?_eq_none (by omega)]

/-! ### The live bytes (10_state.md R30, R31) -/

theorem State.length_liveBytes (s : State) : s.liveBytes.length = s.fill := by
  have := s.fill_lt
  simp [State.liveBytes]; omega

/-- Under 10_state.md R30 the buffer is exactly the word of its live bytes. -/
theorem State.pending_eq_le64_liveBytes (s : State) (h : s.zeroAboveLive) : s.pending = le64 s.liveBytes := by
  apply word_ext_bytes
  intro i hi
  rw [byteAt_le64 _ _ hi, State.liveBytes, List.getD_eq_getElem?_getD, List.getElem?_take]
  split
  · rw [getElem?_bytesLe _ _ hi]; rfl
  · rw [byteAt_of_div_eq_zero _ _ _ h (by omega)]; rfl

/-- The word of fewer than eight bytes has no byte above them. -/
theorem le64_zeroAbove (bs : List Byte) : (le64 bs).toNat / 2 ^ (8 * bs.length) = 0 := by
  apply div_eq_zero_of_byteAt
  intro i hr hi
  rw [byteAt_le64 _ _ hi, List.getD_eq_getElem?_getD, List.getElem?_eq_none hr]; rfl

theorem take_bytesLe_le64 (bs : List Byte) (h : bs.length ≤ 8) : (bytesLe (le64 bs)).take bs.length = bs := by
  apply List.ext_getElem?
  intro i
  rw [List.getElem?_take]
  split
  · next hi =>
    rw [getElem?_bytesLe _ _ (by omega), byteAt_le64 _ _ (by omega), List.getD_eq_getElem?_getD,
      List.getElem?_eq_getElem hi]
    rfl
  · next hi => rw [List.getElem?_eq_none (by omega)]

/-! ### Whole words of a message -/

theorem wholeWords_of_lt (m : List Byte) (h : m.length < 8) : wholeWords m = [] := by
  have : m.length / 8 = 0 := by omega
  simp [wholeWords, this]

theorem wholeWords_append (w m : List Byte) (h : w.length = 8) : wholeWords (w ++ m) = le64 w :: wholeWords m := by
  have e : (w ++ m).length / 8 = m.length / 8 + 1 := by rw [List.length_append]; omega
  rw [wholeWords, e, List.range_succ_eq_map, List.map_cons, List.map_map, wholeWords]
  congr 1
  · simp [h]
  · apply List.map_congr_left
    intro t ht
    simp only [Function.comp, Nat.succ_eq_add_one]
    have : 8 * (t + 1) = w.length + 8 * t := by omega
    rw [this, List.drop_append, List.drop_eq_nil_of_le (by omega)]
    simp

theorem absorbedLanes_of_lt (v : Lanes) (m : List Byte) (h : m.length < 8) : absorbedLanes v m = v := by
  simp [absorbedLanes, wholeWords_of_lt m h]

theorem absorbedLanes_append_word (v : Lanes) (w m : List Byte) (h : w.length = 8) :
    absorbedLanes v (w ++ m) = absorbedLanes (inject v (le64 w)) m := by
  simp [absorbedLanes, wholeWords_append w m h]

theorem length_messageTail (m : List Byte) : (messageTail m).length = m.length % 8 := by
  simp [messageTail]; omega

theorem messageTail_of_lt (m : List Byte) (h : m.length < 8) : messageTail m = m := by
  have : m.length / 8 = 0 := by omega
  simp [messageTail, this]

theorem messageTail_append_word (w m : List Byte) (h : w.length = 8) : messageTail (w ++ m) = messageTail m := by
  have e : 8 * ((w ++ m).length / 8) = w.length + 8 * (m.length / 8) := by rw [List.length_append]; omega
  rw [messageTail, e, List.drop_append, List.drop_eq_nil_of_le (by omega)]
  simp [messageTail]

/-- Induction along a message by its whole words. -/
theorem wordInduction {P : List Byte → Prop} (short : ∀ m, m.length < 8 → P m)
    (word : ∀ w m, w.length = 8 → P m → P (w ++ m)) (m : List Byte) : P m := by
  induction h : m.length using Nat.strongRecOn generalizing m with
  | _ n ih =>
    by_cases h8 : m.length < 8
    · exact short m h8
    · rw [← List.take_append_drop 8 m]
      exact word _ _ (by simp; omega) (ih _ (by simp; omega) _ rfl)

theorem absorbedLanes_append (v : Lanes) (a b : List Byte) :
    absorbedLanes v (a ++ b) = absorbedLanes (absorbedLanes v a) (messageTail a ++ b) := by
  induction a using wordInduction generalizing v with
  | short a h => rw [absorbedLanes_of_lt v a h, messageTail_of_lt a h]
  | word w a h ih =>
    rw [List.append_assoc, absorbedLanes_append_word _ _ _ h, ih, absorbedLanes_append_word _ _ _ h,
      messageTail_append_word _ _ h]

theorem messageTail_append (a b : List Byte) : messageTail (a ++ b) = messageTail (messageTail a ++ b) := by
  induction a using wordInduction with
  | short a h => rw [messageTail_of_lt a h]
  | word w a h ih => rw [List.append_assoc, messageTail_append_word _ _ h, ih, messageTail_append_word _ _ h]

/-! ### The loops of UPDATE -/

theorem strideLoop_of_lt (m : List Byte) (s : State) (h : m.length < 8) : strideLoop m s = (s, m) := by
  match m, h with
  | [], _ => rfl
  | [_], _ => rfl
  | [_, _], _ => rfl
  | [_, _, _], _ => rfl
  | [_, _, _, _], _ => rfl
  | [_, _, _, _, _], _ => rfl
  | [_, _, _, _, _, _], _ => rfl
  | [_, _, _, _, _, _, _], _ => rfl

theorem strideLoop_append (w m : List Byte) (s : State) (h : w.length = 8) :
    strideLoop (w ++ m) s = strideLoop m (s.setPending (le64 w)).injectPending := by
  match w, h with
  | [_, _, _, _, _, _, _, _], _ => rfl

/-- Steps 3 and 4 of UPDATE in closed form (42_streaming_hasher.md R133): they do not read the buffer. -/
theorem strideLoop_eq (m : List Byte) (s : State) :
    ∃ w, strideLoop m s = ({ s with lanes := absorbedLanes s.lanes m, pending := w }, messageTail m) := by
  induction m using wordInduction generalizing s with
  | short m h => exact ⟨s.pending, by rw [strideLoop_of_lt m s h, absorbedLanes_of_lt _ m h, messageTail_of_lt m h]⟩
  | word w m h ih =>
    obtain ⟨p, hp⟩ := ih (s.setPending (le64 w)).injectPending
    exact ⟨p, by rw [strideLoop_append w m s h, hp, absorbedLanes_append_word _ _ _ h, messageTail_append_word _ _ h]; rfl⟩

theorem absorbWords_eq (m : List Byte) (s : State) :
    absorbWords m s = { s with
      lanes := absorbedLanes s.lanes m, cnt := s.cnt + BitVec.ofNat 64 m.length, pending := tailWord m } := by
  obtain ⟨p, hp⟩ := strideLoop_eq m (s.setCnt (s.cnt + BitVec.ofNat 64 m.length))
  have ht : copyTail 0 (messageTail m) 0 = tailWord m := copyTail_le64 [] (messageTail m)
  simp only [absorbWords, hp, ht]
  rfl

theorem cnt_add_succ (c : Count) (n : Nat) : c + 1 + BitVec.ofNat 64 n = c + BitVec.ofNat 64 (n + 1) := by
  rw [BitVec.add_assoc, Nat.add_comm n 1, BitVec.ofNat_add]
  rfl

theorem carryLoop_of_lt (bs : List Byte) (s : State) (h0 : s.fill ≠ 0) (h : s.fill + bs.length < 8) :
    carryLoop bs s = ({ s with
      cnt := s.cnt + BitVec.ofNat 64 bs.length, pending := copyTail s.fill bs s.pending }, []) := by
  induction bs generalizing s with
  | nil => simp [carryLoop, copyTail]
  | cons b bs ih =>
    simp only [List.length_cons] at h
    have hf : (s.appendByte b).fill = s.fill + 1 := by rw [State.appendByte_fill]; omega
    rw [carryLoop, if_pos h0, ih _ (by omega) (by omega), hf]
    simp only [State.appendByte_cnt, cnt_add_succ]
    rfl

theorem carryLoop_of_ge (bs : List Byte) (s : State) (h0 : s.fill ≠ 0) (h : 8 ≤ s.fill + bs.length) :
    carryLoop bs s = ({ s with
      cnt := s.cnt + BitVec.ofNat 64 (8 - s.fill), pending := copyTail s.fill (bs.take (8 - s.fill)) s.pending },
      bs.drop (8 - s.fill)) := by
  induction bs generalizing s with
  | nil => have := s.fill_lt; simp at h; omega
  | cons b bs ih =>
    have hlt := s.fill_lt
    simp only [List.length_cons] at h
    rw [carryLoop, if_pos h0]
    obtain ⟨k, hk⟩ : ∃ k, 8 - s.fill = k + 1 := ⟨7 - s.fill, by omega⟩
    by_cases h7 : s.fill = 7
    · have hf : (s.appendByte b).fill = 0 := by rw [State.appendByte_fill, h7]
      have hc : carryLoop bs (s.appendByte b) = (s.appendByte b, bs) := by
        cases bs <;> simp [carryLoop, hf]
      rw [hc]
      simp only [h7, State.appendByte, State.setPending, State.setCnt]
      rfl
    · have hf : (s.appendByte b).fill = s.fill + 1 := by rw [State.appendByte_fill]; omega
      rw [ih _ (by omega) (by omega), hf, hk]
      have : 8 - (s.fill + 1) = k := by omega
      simp only [this, State.appendByte_cnt, cnt_add_succ]
      rfl

/-- UPDATE in closed form, by its three ways (42_streaming_hasher.md R133, R135): on a word boundary, a carry that stays
short of a word, and a carry that completes one. The first does not read the buffer. -/
theorem update_of_fill_zero (bs : List Byte) (s : State) (h : s.fill = 0) : update bs s = absorbWords bs s := by
  simp [update, h]

theorem update_of_short (bs : List Byte) (s : State) (h0 : s.fill ≠ 0) (h : s.fill + bs.length < 8) :
    update bs s = { s with
      cnt := s.cnt + BitVec.ofNat 64 bs.length, pending := copyTail s.fill bs s.pending } := by
  have hf : State.fill { s with
      cnt := s.cnt + BitVec.ofNat 64 bs.length, pending := copyTail s.fill bs s.pending } ≠ 0 := by
    simp only [State.fill, BitVec.toNat_add, BitVec.toNat_ofNat] at *
    omega
  simp only [update, if_pos h0, carryLoop_of_lt bs s h0 h, if_pos hf]

theorem update_of_carry (bs : List Byte) (s : State) (h0 : s.fill ≠ 0) (h : 8 ≤ s.fill + bs.length) :
    update bs s = absorbWords (bs.drop (8 - s.fill)) { s with
      lanes := inject s.lanes (copyTail s.fill (bs.take (8 - s.fill)) s.pending)
      cnt := s.cnt + BitVec.ofNat 64 (8 - s.fill)
      pending := copyTail s.fill (bs.take (8 - s.fill)) s.pending } := by
  have hf : ¬ State.fill { s with
      cnt := s.cnt + BitVec.ofNat 64 (8 - s.fill)
      pending := copyTail s.fill (bs.take (8 - s.fill)) s.pending } ≠ 0 := by
    simp only [State.fill, BitVec.toNat_add, BitVec.toNat_ofNat] at *
    omega
  simp only [update, if_pos h0, carryLoop_of_ge bs s h0 h, if_neg hf]
  rfl

/-- UPDATE under 10_state.md R30: the live bytes followed by the new ones are one message. Its whole words are injected,
its tail waits in the buffer. -/
theorem update_eq (bs : List Byte) (s : State) (h : s.zeroAboveLive) :
    update bs s = { s with
      lanes := absorbedLanes s.lanes (s.liveBytes ++ bs)
      cnt := s.cnt + BitVec.ofNat 64 bs.length
      pending := tailWord (s.liveBytes ++ bs) } := by
  have hp := s.pending_eq_le64_liveBytes h
  have hl := s.length_liveBytes
  have hlt := s.fill_lt
  by_cases h0 : s.fill = 0
  · rw [update_of_fill_zero _ _ h0, absorbWords_eq, List.eq_nil_of_length_eq_zero (hl.trans h0)]
    rfl
  · have hc : ∀ cs, copyTail s.fill cs s.pending = le64 (s.liveBytes ++ cs) := fun cs => by
      rw [← hl, hp, copyTail_le64]
    by_cases hs : s.fill + bs.length < 8
    · have : (s.liveBytes ++ bs).length < 8 := by rw [List.length_append]; omega
      rw [update_of_short _ _ h0 hs, absorbedLanes_of_lt _ _ this, tailWord, messageTail_of_lt _ this, hc]
    · have hw : (s.liveBytes ++ bs.take (8 - s.fill)).length = 8 := by
        rw [List.length_append, List.length_take]; omega
      have hm : s.liveBytes ++ bs = (s.liveBytes ++ bs.take (8 - s.fill)) ++ bs.drop (8 - s.fill) := by
        rw [List.append_assoc, List.take_append_drop]
      have hn : s.cnt + BitVec.ofNat 64 (8 - s.fill) + BitVec.ofNat 64 (bs.drop (8 - s.fill)).length =
          s.cnt + BitVec.ofNat 64 bs.length := by
        rw [BitVec.add_assoc, ← BitVec.ofNat_add, List.length_drop]
        congr 2; omega
      rw [update_of_carry _ _ h0 (by omega), absorbWords_eq, hm, absorbedLanes_append_word _ _ _ hw, tailWord, tailWord, messageTail_append_word _ _ hw, hc, hn]

/-- UPDATE moves the counter's place in the buffer by the bytes it takes, on every path. -/
theorem fill_update (bs : List Byte) (s : State) : (update bs s).fill = (s.fill + bs.length) % 8 := by
  have key : ∀ n : Nat, (s.cnt + BitVec.ofNat 64 n).toNat % 8 = (s.cnt.toNat % 8 + n) % 8 := fun n => by
    simp only [BitVec.toNat_add, BitVec.toNat_ofNat]; omega
  by_cases h0 : s.fill = 0
  · rw [update_of_fill_zero _ _ h0, absorbWords_eq]; exact key _
  · have hlt := s.fill_lt
    by_cases hs : s.fill + bs.length < 8
    · rw [update_of_short _ _ h0 hs]; exact key _
    · rw [update_of_carry _ _ h0 (by omega), absorbWords_eq]
      simp only [State.fill, BitVec.add_assoc, ← BitVec.ofNat_add] at *
      rw [key]
      simp only [List.length_drop]
      omega

/-- What UPDATE leaves and writes whatever the buffer holds: its frame, and the counter (10_state.md R26, R27). -/
theorem update_frame (bs : List Byte) (s : State) :
    (update bs s).phase = s.phase ∧ (update bs s).inbox = s.inbox ∧ (update bs s).responses = s.responses ∧
    (update bs s).draws = s.draws ∧ (update bs s).consts = s.consts ∧
    (update bs s).cnt = s.cnt + BitVec.ofNat 64 bs.length := by
  by_cases h0 : s.fill = 0
  · rw [update_of_fill_zero _ _ h0, absorbWords_eq]; exact ⟨rfl, rfl, rfl, rfl, rfl, rfl⟩
  · have hlt := s.fill_lt
    by_cases hs : s.fill + bs.length < 8
    · rw [update_of_short _ _ h0 hs]; exact ⟨rfl, rfl, rfl, rfl, rfl, rfl⟩
    · rw [update_of_carry _ _ h0 (by omega), absorbWords_eq]
      refine ⟨rfl, rfl, rfl, rfl, rfl, ?_⟩
      simp only [BitVec.add_assoc, ← BitVec.ofNat_add, List.length_drop]
      congr 2; omega

/-- UPDATE does not read the block's constants (00_scope.md R9). -/
theorem update_withConstants (bs : List Byte) (s : State) (c : Config.InitConstants) :
    update bs (s.withConstants c) = (update bs s).withConstants c := by
  by_cases h0 : s.fill = 0
  · rw [update_of_fill_zero _ _ h0, update_of_fill_zero _ (s.withConstants c) h0, absorbWords_eq, absorbWords_eq]; rfl
  · have hlt := s.fill_lt
    by_cases hs : s.fill + bs.length < 8
    · rw [update_of_short _ _ h0 hs, update_of_short _ (s.withConstants c) h0 hs]; rfl
    · rw [update_of_carry _ _ h0 (by omega), update_of_carry _ (s.withConstants c) h0 (by simp; omega), absorbWords_eq,
        absorbWords_eq]
      rfl

/-- The live bytes after UPDATE are the tail of the message (10_state.md R31). -/
theorem liveBytes_update (bs : List Byte) (s : State) (h : s.zeroAboveLive) :
    (update bs s).liveBytes = messageTail (s.liveBytes ++ bs) := by
  have hl : (messageTail (s.liveBytes ++ bs)).length = (update bs s).fill := by
    rw [length_messageTail, List.length_append, State.length_liveBytes, fill_update]
  rw [State.liveBytes, ← hl, update_eq bs s h]
  exact take_bytesLe_le64 _ (by rw [length_messageTail]; omega)

/-- UPDATE keeps 10_state.md R30. -/
theorem zeroAboveLive_update (bs : List Byte) (s : State) (h : s.zeroAboveLive) : (update bs s).zeroAboveLive := by
  have hl : (messageTail (s.liveBytes ++ bs)).length = (update bs s).fill := by
    rw [length_messageTail, List.length_append, State.length_liveBytes, fill_update]
  rw [State.zeroAboveLive, ← hl, update_eq bs s h]
  exact le64_zeroAbove _

end Sys2Proof.Machine
end

