-- ==== Sys2Proof/Laws/Step.lean ====
section
/-! SUPPORT. The legality check, taking a fault, and the step, each said once: `guarded_eq`, `exec_eq`, `effect_frame`,
`step_cases`. -/

namespace Sys2Proof.Machine

/-! ### The legality check (60_exceptions.md R201) -/

@[simp] theorem legality_faulted (d : Decoded) : legality .faulted d = some .faulted := rfl

theorem legality_illegal (p : Phase) (why : Illegal) (h : p ≠ .faulted) :
    legality p (.illegal why) = some .illegalCommand := by
  simp [legality, h]

theorem legality_construct (p : Phase) (k0 k1 : Word) (h : p ≠ .faulted) :
    legality p (.command (.construct k0 k1)) = none := by
  simp [legality, h]

@[simp] theorem legality_absorbing (i : Instr) : legality .absorbing (.command i) = none := by
  cases i <;> rfl

theorem legality_empty (i : Instr) (h : ∀ k0 k1, i ≠ .construct k0 k1) :
    legality .empty (.command i) = some .noInstance := by
  cases i with
  | construct k0 k1 => exact absurd rfl (h k0 k1)
  | absorb bytes => rfl
  | digest64 => rfl
  | digest128 => rfl

/-- The legal commands: CONSTRUCT outside FAULTED, and everything in ABSORBING. -/
theorem legality_eq_none (p : Phase) (d : Decoded) (h : legality p d = none) :
    ∃ i, d = .command i ∧ ((p ≠ .faulted ∧ ∃ k0 k1, i = .construct k0 k1) ∨ p = .absorbing) := by
  cases d with
  | illegal why => cases p <;> simp [legality] at h
  | command i => cases i <;> cases p <;> simp [legality] at h ⊢

/-! ### A command -/

/-- A command's own effect, when it is legal. -/
def effect : Instr → State → State
  | .construct k0 k1 => construct k0 k1
  | .absorb bytes => absorb bytes
  | .digest64 => digest64
  | .digest128 => digest128

/-- A command is its fault or its effect, never both (60_exceptions.md R203). -/
theorem guarded_eq (d : Decoded) (e : State → State) (s : State) :
    guarded d e s = .next (match legality s.phase d with | some c => s.raise c | none => e s) := by
  unfold guarded; cases legality s.phase d <;> rfl

theorem exec_eq (i : Instr) (s : State) :
    exec i s = .next (match legality s.phase (.command i) with | some c => s.raise c | none => effect i s) := by
  cases i <;> exact guarded_eq _ _ s

theorem exec_of_legal (i : Instr) (s : State) (h : legality s.phase (.command i) = none) :
    exec i s = .next (effect i s) := by
  rw [exec_eq, h]

theorem exec_of_fault (i : Instr) (s : State) (c : Cause) (h : legality s.phase (.command i) = some c) :
    exec i s = .next (s.raise c) := by
  rw [exec_eq, h]

/-- What every command's own effect leaves (00_scope.md R9, 30_encoding.md R77): the events to come, the draws and the
constants; and it adds one response. -/
theorem effect_frame (i : Instr) (s : State) :
    (effect i s).inbox = s.inbox ∧ (effect i s).draws = s.draws ∧ (effect i s).consts = s.consts ∧
    ∃ r, (effect i s).responses = s.responses ++ [r] := by
  cases i with
  | construct k0 k1 => exact ⟨rfl, rfl, rfl, _, rfl⟩
  | absorb bytes =>
    obtain ⟨-, hi, hr, hd, hc, -⟩ := update_frame bytes s
    exact ⟨hi, hd, hc, .done, by simp [effect, absorb, hr]⟩
  | digest64 => exact ⟨rfl, rfl, rfl, _, rfl⟩
  | digest128 => exact ⟨rfl, rfl, rfl, _, rfl⟩

/-- CONSTRUCT alone reads the constants (42_streaming_hasher.md R130). -/
theorem effect_withConstants (i : Instr) (s : State) (c : Config.InitConstants) (h : ∀ k0 k1, i ≠ .construct k0 k1) :
    effect i (s.withConstants c) = (effect i s).withConstants c := by
  cases i with
  | construct k0 k1 => exact absurd rfl (h k0 k1)
  | absorb bytes => simp only [effect, absorb, update_withConstants]; rfl
  | digest64 => rfl
  | digest128 => rfl

/-! ### The step -/

theorem step_nil (s : State) (h : s.inbox = []) : step s = .next s := by
  simp [step, State.takeEvent, h]

theorem step_reset (s : State) (q : List Event) (h : s.inbox = .reset :: q) :
    step s = .next (resetEvent (s.withInbox q)) := by
  simp [step, State.takeEvent, h]

/-- A step on a command word: the check on what it decodes to, then the fault or the effect. -/
theorem step_command (s : State) (w : CmdWord) (q : List Event) (h : s.inbox = .command w :: q) :
    step s = .next (match legality s.phase (decode w), decode w with
      | some c, _ => (s.withInbox q).raise c
      | none, .command i => effect i (s.withInbox q)
      | none, .illegal _ => s.withInbox q) := by
  simp only [step, State.takeEvent, h]
  cases hd : decode w with
  | command i => simp only [exec_eq, State.withInbox_phase]; cases legality s.phase (.command i) <;> rfl
  | illegal why =>
    simp only [illegalWord, guarded_eq, State.withInbox_phase]; cases legality s.phase (.illegal why) <;> rfl

/-- Everything a step can do. -/
theorem step_cases {s t : State} (h : step s = .next t) :
    (s.inbox = [] ∧ t = s) ∨
    (∃ q, s.inbox = .reset :: q ∧ t = resetEvent (s.withInbox q)) ∨
    (∃ w q c, s.inbox = .command w :: q ∧ legality s.phase (decode w) = some c ∧ t = (s.withInbox q).raise c) ∨
    ∃ w q i, s.inbox = .command w :: q ∧ decode w = .command i ∧ legality s.phase (.command i) = none ∧
      t = effect i (s.withInbox q) := by
  match hi : s.inbox with
  | [] => rw [step_nil s hi] at h; cases h; exact .inl ⟨rfl, rfl⟩
  | .reset :: q => rw [step_reset s q hi] at h; cases h; exact .inr (.inl ⟨q, rfl, rfl⟩)
  | .command w :: q =>
    rw [step_command s w q hi] at h
    cases hl : legality s.phase (decode w) with
    | some c => rw [hl] at h; cases h; exact .inr (.inr (.inl ⟨w, q, c, rfl, hl, rfl⟩))
    | none =>
      obtain ⟨i, hd, -⟩ := legality_eq_none _ _ hl
      rw [hl, hd] at h; cases h
      exact .inr (.inr (.inr ⟨w, q, i, rfl, hd, hd ▸ hl, rfl⟩))

theorem runSteps_zero (s : State) : s.runSteps 0 = .next s := rfl

theorem runSteps_succ {s t : State} (k : Nat) (h : step s = .next t) : s.runSteps (k + 1) = t.runSteps k := by
  have hs : Sys2Proof.core.step s = .next t := h
  simp only [State.runSteps, Host.Core.run, hs]
  rfl

end Sys2Proof.Machine
end

