-- ==== Sys2Proof/Tests/Slice0.lean ====
section
/-! SUPPORT. Tests. The expected values are the spec's own: its encodings and worked examples (30_encoding.md, 40 to 43,
60, 95_test_vectors.md). The second half shows, for every statement with hypotheses, values that meet them. -/

namespace Sys2Proof.Tests

open Sys2Proof.Machine

/-- A small state: the given phase, counter, buffer and events; zero lanes; nothing answered; the default constants. -/
def sample (p : Phase) (c : Count) (w : Word) (q : List Event) : State :=
  { phase := p, lanes := ⟨0, 0, 0, 0⟩, cnt := c, pending := w, inbox := q, responses := [], draws := 0,
    consts := initConstants }

/-- The lanes of the default constants with the zero key (95_test_vectors.md section 4). -/
def zeroKeyLanes : Lanes := ⟨0x736f6d6570736575, 0x646f72616e646f6d, 0x6c7967656e657261, 0x7465646279746573⟩

/-- The next state of an outcome that has one. -/
def nextOf (s : State) (o : Host.Outcome State Fault Refusal) : State :=
  match o with
  | .next t => t
  | .fault _ => s
  | .refused _ => s

/-! ### WellFormed: the one check refuses an ill-formed term (30_encoding.md R72) -/

theorem test_wf_absorb_nine : (Instr.absorb (List.replicate 9 0)).wf = false := by decide
theorem test_wf_absorb_eight : (Instr.absorb (List.replicate 8 0)).wf = true := by decide
theorem test_wf_line_absorb_nine : (AsmLine.command (.absorb (List.replicate 9 0))).wf = false := by decide

/-! ### Decoding: words written out from 30_encoding.md R71 (`b`, `a`, `len`, `op` from the left) -/

theorem test_decode_construct :
    decode 0x0f0e0d0c0b0a0908070605040302010001 =
      .command (.construct 0x0706050403020100 0x0f0e0d0c0b0a0908) := by decide
theorem test_decode_absorb_none : decode 0x0000000000000000000000000000000002 = .command (.absorb []) := by decide
theorem test_decode_absorb_ignores_high_bytes :
    decode 0x0000000000000000deadbeef0063626132 = .command (.absorb [0x61, 0x62, 0x63]) := by decide
theorem test_decode_absorb_full :
    decode 0x0000000000000000070605040302010082 = .command (.absorb [0, 1, 2, 3, 4, 5, 6, 7]) := by decide
theorem test_decode_digest64 : decode 0x0000000000000000000000000000000003 = .command .digest64 := by decide
theorem test_decode_digest128 : decode 0x0000000000000000000000000000000004 = .command .digest128 := by decide
theorem test_decode_zero : decode 0 = .illegal .reservedOpcode := by decide
theorem test_decode_op_fifteen : decode 0x0f = .illegal .reservedOpcode := by decide
theorem test_decode_construct_len : decode 0x11 = .illegal .constructLenNotZero := by decide
theorem test_decode_absorb_len_nine : decode 0x92 = .illegal .absorbLenAboveEight := by decide
theorem test_decode_absorb_b :
    decode 0x0000000000000001000000000000000082 = .illegal .absorbBNotZero := by decide
theorem test_decode_digest64_a : decode 0x103 = .illegal .digestOperandNotZero := by decide
theorem test_decode_digest128_b :
    decode 0x0000000000000001000000000000000004 = .illegal .digestOperandNotZero := by decide
theorem test_decode_table_word : decodeTableWord 136 0x63626132 = some (.absorb [0x61, 0x62, 0x63]) := by decide
theorem test_encode_absorb :
    encode (.absorb [0x64, 0x65, 0x66, 0x67, 0x68, 0x69]) = 0x0000000000000000000069686766656462 := by decide

/-! ### Micro-operations (40_round_function.md R108, 41_block_mixer.md R123) -/

theorem test_sipRound_trace :
    sipRound ⟨0x0123456789abcdef, 0xfedcba9876543210, 0x0f1e2d3c4b5a6978, 0x8796a5b4c3d2e1f0⟩ =
      ⟨0x33001123eeddccfd, 0x1d0b375d48a3fad5, 0x88eb2b8cff61c426, 0x177dca9a711bacff⟩ := by decide
theorem test_inject_length_byte :
    inject ⟨0, 0, 0, 0⟩ 0xff00000000000000 =
      ⟨0x0020df40be1fe000, 0xfd0000211ede03e0, 0xdf1fffe0fd000020, 0xf8d8dcbcbe0003fc⟩ := by decide

/-! ### Commands: one step each -/

/-- 95_test_vectors.md section 4, row 3; lanes 0 and 2 take k0, lanes 1 and 3 take k1. -/
theorem test_construct_lanes :
    (nextOf .reset (exec (.construct 0xffffffffffffffff 1) .reset)).lanes =
      ⟨0x8c90929a8f8c9a8a, 0x646f72616e646f6c, 0x9386989a919a8d9e, 0x7465646279746572⟩ := by decide

/-- The lanes come from the block's own constants, whatever they are (42_streaming_hasher.md R130, 00_scope.md R9). -/
theorem test_construct_other_constants :
    (nextOf .reset (exec (.construct 0x0f 0xf0) (State.reset.withConstants ⟨1, 2, 3, 4⟩))).lanes =
      ⟨0x0e, 0xf2, 0x0c, 0xf4⟩ := by decide

/-- 95_test_vectors.md section 5.4, the third case: "defghi" after "abc". -/
theorem test_absorb_across_a_word :
    (let t := nextOf .reset (exec (.absorb [0x64, 0x65, 0x66, 0x67, 0x68, 0x69])
        { sample .absorbing 3 0x636261 [] with lanes := zeroKeyLanes })
     (t.lanes, t.cnt, t.pending)) =
      (⟨0xfb63226d71c1a40b, 0x92f0bff9490c28f2, 0x0f77896c95abba23, 0x1234827814e2cfa5⟩, 9, 0x69) := by decide

/-- 95_test_vectors.md section 5.4, the first case: "abc" into an empty buffer. -/
theorem test_absorb_short :
    (let t := nextOf .reset (exec (.absorb [0x61, 0x62, 0x63]) (sample .absorbing 0 0 []))
     (t.lanes, t.cnt, t.pending, t.responses)) = (⟨0, 0, 0, 0⟩, 3, 0x636261, [.done]) := by decide

/-- 95_test_vectors.md P1: the empty message with the zero key. -/
theorem test_digest64_empty :
    (let t := nextOf .reset (exec .digest64 { sample .absorbing 0 0 [] with lanes := zeroKeyLanes })
     (t.phase, t.responses)) = (.finalized, [.digest64 0x1e924b9d737700d7]) := by decide

/-- 43_finalization_digest.md R167: 15 bytes; the final word stays in `pending`. -/
theorem test_digest64_fifteen :
    (let t := nextOf .reset (exec .digest64 { sample .absorbing 15 0x000e0d0c0b0a0908 [] with
        lanes := ⟨0x4a017198de0a59e0, 0x0d52f6f62a4f59a4, 0x634cb3577b01fd3d, 0xa5224d6f55c7d9c8⟩ })
     (t.pending, t.cnt, t.responses)) = (0x0f0e0d0c0b0a0908, 15, [.digest64 0xa129ca6149be45e5]) := by decide

/-- 95_test_vectors.md P3, command 5: "abcdefghi". -/
theorem test_digest128_nine :
    (nextOf .reset (exec .digest128 { sample .absorbing 9 0x69 [] with
        lanes := ⟨0xfb63226d71c1a40b, 0x92f0bff9490c28f2, 0x0f77896c95abba23, 0x1234827814e2cfa5⟩ })).responses =
      [.digest128 0x56224592db471330 0x050579d8c39736bc] := by decide

/-! ### The step (60_exceptions.md, 95_test_vectors.md section 8 and P4) -/

theorem test_step_runs_the_table_word :
    (nextOf .reset (step (State.reset.withFetchWord 136 0x01))).lanes = zeroKeyLanes := by decide
theorem test_step_digest_before_construct :
    (let t := nextOf .reset (step (State.reset.withFetchWord 136 0x03))
     (t.phase, t.responses)) = (.faulted, [.fault .noInstance]) := by decide
theorem test_step_decode_before_phase :
    (nextOf .reset (step (sample .finalized 0 0 [.command 0]))).responses = [.fault .illegalCommand] := by decide
theorem test_step_faulted_before_decode :
    (nextOf .reset (step (sample .faulted 0 0 [.command 5]))).responses = [.fault .faulted] := by decide
theorem test_step_reset_leaves_faulted :
    (nextOf .reset (step (sample .faulted 0 0 [.reset]))).phase = .empty := by decide
theorem test_step_empty_beat_after_digest :
    (nextOf .reset (step (sample .finalized 0 0 [.command 0x02]))).responses = [.fault .updateAfterFinalize] := by
  decide

/-! ### Responses, bytes and the assembler (30_encoding.md R78 to R80, 20_memory.md R52) -/

theorem test_response_digest128 :
    (Response.digest128 0xe983a656dbc1b532 0xf711edcba8b6b5e5).word = 0xf711edcba8b6b5e5e983a656dbc1b5322 := by decide
theorem test_response_fault : (Response.fault .faulted).word = 0x5f := by decide
theorem test_digest_bytes :
    digestBytes128 0xe983a656dbc1b532 0xf711edcba8b6b5e5 =
      [0x32, 0xb5, 0xc1, 0xdb, 0x56, 0xa6, 0x83, 0xe9, 0xe5, 0xb5, 0xb6, 0xa8, 0xcb, 0xed, 0x11, 0xf7] := by decide
theorem test_hash64_abc_words :
    assemble (.hash64 [0x61, 0x62, 0x63]) = [.command 0x01, .command 0x63626132, .command 0x03] := by decide
theorem test_parse_update : parseLine "UPDATE \"ab\"" = some (.update [0x61, 0x62]) := by decide
theorem test_parse_unclosed_string : parseLine "ABSORB \"ab" = none := by decide
theorem test_keyed_hash_abc : keyedHash64 initConstants 0 0 [0x61, 0x62, 0x63] = 0x3fc884964770eede := by decide

/-! ### Values that meet the hypotheses of each statement -/

theorem test_witness_RotationIsCircularLeft : (0 < 1 ∧ 1 < 64 ∧ 0 < 64) ∧ (0 < 63 ∧ 63 < 64 ∧ 63 < 64) := by decide

theorem test_witness_XorIsBitwiseSumModuloTwo : 0 < 64 ∧ 63 < 64 := by decide

theorem test_witness_ZeroLanesAreAFixedPoint :
    (⟨0, 0, 1, 0⟩ : Config.InitConstants).c0 ≠ (⟨0, 0, 1, 0⟩ : Config.InitConstants).c2 := by decide

theorem test_witness_WordsAreLittleEndianBytes :
    (0 < 8 ∧ 0 < 8) ∧ (7 < 8 ∧ 7 < 8) ∧ (List.replicate 8 (0xff : Byte)).length = 8 := by decide

theorem test_witness_BytewiseAssemblyGivesTheSameWord :
    ([] : List Byte).length ≤ 8 ∧ (List.replicate 8 (0xff : Byte)).length ≤ 8 := by decide

theorem test_witness_DigestBytesAreLittleEndian : (0 < 16 ∧ 15 < 16) ∧ 0 < 8 ∧ 7 < 8 := by decide

theorem test_witness_DecodeOfEncodeIsTheCommand :
    (Instr.construct 1 2).wf = true ∧ (Instr.absorb []).wf = true ∧ (Instr.absorb (List.replicate 8 1)).wf = true ∧
    Instr.digest64.wf = true ∧ Instr.digest128.wf = true := by decide

theorem test_witness_EncodeOfDecodeIsTheWord :
    decode 0x01 = .command (.construct 0 0) ∧ decode 0xff0000000012 = .command (.absorb [0]) ∧
    decode 0x03 = .command .digest64 ∧ decode 0x04 = .command .digest128 := by decide

theorem test_witness_DecodeAgreesWithTheOpcodeTable :
    ∃ r ∈ opcodeRows, r.mnemonic = "ABSORB" ∧ r.selects 0x82 = true := by decide

theorem test_witness_IllegalWordsRaiseTheFault :
    (sample .empty 0 0 [.command 0]).inbox = [.command 0] ∧ (sample .faulted 0 0 [.command 0]).inbox = [.command 0] ∧
    decode 0 = .illegal .reservedOpcode := by decide

theorem test_witness_ConstructOperandsAreTheFields :
    (0x0f0e0d0c0b0a0908070605040302010001 : CmdWord).extractLsb 3 0 = 1 ∧
    (0x0f0e0d0c0b0a0908070605040302010001 : CmdWord).extractLsb 7 4 = 0 := by decide

theorem test_witness_AbsorbBytesAreTheFirstOfTheDataWord :
    (CmdWord.op 0x02 = 2 ∧ (CmdWord.len 0x02).toNat ≤ 8 ∧ CmdWord.b 0x02 = 0) ∧
    (CmdWord.op 0x82 = 2 ∧ (CmdWord.len 0x82).toNat ≤ 8 ∧ CmdWord.b 0x82 = 0 ∧ 7 < (CmdWord.len 0x82).toNat ∧
      CmdWord.len 0x82 = 8) ∧
    (CmdWord.op 0xaa6132 = 2 ∧ CmdWord.op 0xff00aa6132 = 2 ∧ CmdWord.len 0xaa6132 = CmdWord.len 0xff00aa6132 ∧
      CmdWord.b 0xaa6132 = CmdWord.b 0xff00aa6132 ∧
      ∀ i, i < (CmdWord.len 0xaa6132).toNat → byteAt (CmdWord.a 0xaa6132) i = byteAt (CmdWord.a 0xff00aa6132) i) ∧
    ((sample .absorbing 16 0 [.command 0x82]).inbox = [.command 0x82] ∧
      (sample .absorbing 16 0 [.command 0x82]).phase = .absorbing ∧
      (sample .absorbing 16 0 [.command 0x82]).cnt.toNat % 8 = 0) := by decide

theorem test_witness_ResponseWordHasItsFields :
    (0 < 16 ∧ 15 < 16) ∧ (∃ t, exec (.construct 0 0) (sample .empty 0 0 []) = .next t) ∧
    (∃ t, exec (.absorb []) (sample .absorbing 0 0 []) = .next t) ∧
    (∃ t, exec .digest64 (sample .absorbing 0 0 []) = .next t) ∧
    ∃ t, exec .digest128 (sample .empty 0 0 []) = .next t :=
  ⟨by decide, ⟨_, rfl⟩, ⟨_, rfl⟩, ⟨_, rfl⟩, ⟨_, rfl⟩⟩

theorem test_witness_ResponseWordsAreDistinct :
    (Response.fault .faulted).word = (Response.fault .faulted).word := rfl

theorem test_witness_AssemblerReadsOnlyWellFormedLines : parseLine "RESET" = some .reset := by decide

theorem test_witness_ConstructStartsAFreshInstance :
    (sample .empty 0 0 []).phase ≠ .faulted ∧ (sample .absorbing 7 0xff []).phase ≠ .faulted ∧
    (sample .finalized 7 0xff []).phase ≠ .faulted ∧ (sample .faulted 0 0 []).phase = .faulted ∧
    ((sample .empty 0 0 [.command 0x11]).inbox = [.command 0x11] ∧ (sample .empty 0 0 [.command 0x11]).phase ≠ .faulted ∧
      CmdWord.op 0x11 = 1 ∧ CmdWord.len 0x11 ≠ 0) := by decide

theorem test_witness_DefaultConstantsGiveTheListedLanes :
    State.reset.consts = initConstants ∧ State.reset.phase ≠ .faulted := by decide

/-- Each of the three cases at both ends of its range: 7 + 0 and 0 + 7, 0 + 8 and 7 + 1, 1 + 8 and 7 + 8. -/
theorem test_witness_AbsorbHasItsThreeCases :
    (sample .absorbing 7 0x77777777777777 []).zeroAboveLive ∧ (sample .absorbing 0 0 []).zeroAboveLive ∧
    (sample .absorbing 1 0xff []).zeroAboveLive ∧ (sample .absorbing 7 0 []).phase = .absorbing ∧
    (List.replicate 8 (0 : Byte)).length ≤ 8 ∧
    (7 + 0 < 8 ∧ 0 + 7 < 8) ∧ (0 + 8 = 8 ∧ 7 + 1 = 8) ∧ (8 < 1 + 8 ∧ 8 < 7 + 8) := by decide

theorem test_witness_AbsorbCompletesAndCounts : (sample .absorbing 3 0xffffffffffffffff []).phase = .absorbing := rfl

theorem test_witness_UpdateIsTheByteSerialRun :
    (sample .absorbing 7 0x77777777777777 []).zeroAboveLive ∧ (sample .absorbing 0 0 []).zeroAboveLive := by decide

theorem test_witness_ChunkingDoesNotMatter : (sample .absorbing 5 0x5555555555 []).zeroAboveLive := by decide

theorem test_witness_UpdateReachesItsClosedForm :
    ((sample .absorbing 8 0 []).cnt.toNat % 8 = 0 ∧ (sample .absorbing 8 0 []).pending = 0) ∧
    (sample .finalized 0 0 []).phase ≠ .faulted := by decide

theorem test_witness_LiveBytesAreTheLastAbsorbed : (sample .absorbing 3 0x636261 []).zeroAboveLive := by decide

theorem test_witness_ZeroLengthAbsorbChangesNothing :
    (sample .absorbing 3 0x636261 []).phase = .absorbing ∧ (sample .absorbing 3 0x636261 []).zeroAboveLive := by decide

theorem test_witness_Digest64FinalizesAndAnswers :
    (sample .absorbing 3 0x636261 []).phase = .absorbing ∧ (sample .empty 0 0 []).phase = .empty ∧
    (sample .finalized 0 0 []).phase = .finalized ∧ (sample .faulted 0 0 []).phase = .faulted ∧
    (sample .finalized 0 0 [.command 0x103]).inbox = [.command 0x103] ∧ CmdWord.op 0x103 = 3 ∧
    CmdWord.a 0x103 ≠ 0 := by decide

theorem test_witness_Digest128FinalizesAndAnswers :
    (sample .absorbing 3 0x636261 []).phase = .absorbing ∧ (sample .empty 0 0 []).phase = .empty ∧
    (sample .finalized 0 0 []).phase = .finalized ∧ (sample .faulted 0 0 []).phase = .faulted ∧
    (sample .empty 0 0 [.command 0x14]).inbox = [.command 0x14] ∧ CmdWord.op 0x14 = 4 ∧
    CmdWord.len 0x14 ≠ 0 := by decide

theorem test_witness_TheTwoDigestsAgree : (sample .absorbing 0 0 []).phase = .absorbing := rfl

theorem test_witness_FinalWordIsTailPlusLength :
    (sample .absorbing 255 0x77777777777777 []).zeroAboveLive ∧ (sample .absorbing 0 0 []).cnt = 0 ∧
    (sample .absorbing 0 0 []).pending = 0 := by decide

theorem test_witness_ADigestIsSingleUse :
    (sample .absorbing 0 0 []).phase = .absorbing ∧ (∃ t, exec .digest64 (sample .absorbing 0 0 []) = .next t) ∧
    ∃ t, exec .digest128 (sample .absorbing 0 0 []) = .next t :=
  ⟨rfl, ⟨_, rfl⟩, ⟨_, rfl⟩⟩

/-- A session of three beats, one of them empty and one full. -/
def threeBeats : Session := ⟨1, 2, [[1, 2, 3], [], [1, 2, 3, 4, 5, 6, 7, 8]], true⟩

theorem test_witness_LegalUseAnswersTheHashOfEveryMessage :
    (∀ u ∈ [threeBeats], u.wf = true) ∧
    (sample .empty 0 0 (presentAll ([threeBeats].flatMap Session.commands) ++ [.reset])).phase ≠ .faulted ∧
    (sample .empty 0 0 (presentAll ([threeBeats].flatMap Session.commands) ++ [.reset])).inbox =
      presentAll ([threeBeats].flatMap Session.commands) ++ [.reset] :=
  ⟨by decide, by decide, rfl⟩

theorem test_witness_OneShotWrappersAnswerTheDigest :
    ((sample .finalized 0 0 (assemble (.hash64 []) ++ [])).phase ≠ .faulted ∧
      (sample .finalized 0 0 (assemble (.hash64 []) ++ [])).inbox = assemble (.hash64 []) ++ []) ∧
    ((sample .empty 0 0 (assemble (.hash128 [1]) ++ [.reset])).phase ≠ .faulted ∧
      (sample .empty 0 0 (assemble (.hash128 [1]) ++ [.reset])).inbox = assemble (.hash128 [1]) ++ [.reset]) ∧
    (sample .faulted 0 0 (assemble (.hash64 [1]) ++ [])).phase = .faulted :=
  ⟨⟨by decide, rfl⟩, ⟨by decide, rfl⟩, rfl⟩

theorem test_witness_AnyBeatsCarryAnUpdate :
    (∀ b ∈ threeBeats.beats, b.length ≤ 8) ∧
    (sample .absorbing 5 0x5555555555 (presentAll (threeBeats.beats.map .absorb) ++ [])).zeroAboveLive ∧
    (sample .absorbing 5 0x5555555555 (presentAll (threeBeats.beats.map .absorb) ++ [])).inbox =
      presentAll (threeBeats.beats.map .absorb) ++ [] :=
  ⟨by decide, by decide, rfl⟩

theorem test_witness_UpdateExpandsToFullBeats :
    (cutBeats (List.replicate 9 0)).getLast? = some [0] ∧
    (cutBeats (List.replicate 16 0)).getLast? = some (List.replicate 8 0) := by decide

theorem test_witness_PhaseTableIsComplete :
    (sample .finalized 0 0 [.command 0x04]).inbox = [.command 0x04] ∧ (sample .faulted 0 0 [.reset]).inbox = [.reset] :=
  ⟨rfl, rfl⟩

theorem test_witness_AFaultWritesOnlyThePhase :
    ∃ t, step (sample .finalized 3 0x636261 [.command 0x12]) = .next t ∧
      t.responses = (sample .finalized 3 0x636261 [.command 0x12]).responses ++ [.fault .updateAfterFinalize] :=
  ⟨_, rfl, rfl⟩

/-- One faulting command for each cause. -/
theorem test_witness_FaultsFollowThePriorityOrder :
    (∃ t, step (sample .faulted 0 0 [.command 0x05]) = .next t ∧ t.responses = [] ++ [.fault .faulted]) ∧
    (∃ t, step (sample .finalized 0 0 [.command 0x05]) = .next t ∧ t.responses = [] ++ [.fault .illegalCommand]) ∧
    (∃ t, step (sample .empty 0 0 [.command 0x02]) = .next t ∧ t.responses = [] ++ [.fault .noInstance]) ∧
    (∃ t, step (sample .finalized 0 0 [.command 0x02]) = .next t ∧ t.responses = [] ++ [.fault .updateAfterFinalize]) ∧
    ∃ t, step (sample .finalized 0 0 [.command 0x04]) = .next t ∧ t.responses = [] ++ [.fault .finalizeTwice] :=
  ⟨⟨_, rfl, rfl⟩, ⟨_, rfl, rfl⟩, ⟨_, rfl, rfl⟩, ⟨_, rfl, rfl⟩, ⟨_, rfl, rfl⟩⟩

theorem test_witness_FaultedIsStickyUntilReset :
    (sample .faulted 0 0 [.command 1, .command 0, .reset]).inbox = List.map Event.command [1, 0] ++ [.reset] ∧
    ∃ t, step (sample .faulted 0 0 [.reset]) = .next t ∧ t.phase ≠ .faulted :=
  ⟨rfl, _, rfl, by decide⟩

theorem test_witness_StepRunsTheDecodedCommand :
    (sample .absorbing 0 0 [.command 0x03]).inbox = [.command 0x03] ∧ decode 0x03 = .command .digest64 ∧
    (sample .empty 0 0 [.command (encode (.absorb (List.replicate 8 0)))]).inbox =
      [.command (encode (.absorb (List.replicate 8 0)))] ∧
    (Instr.absorb (List.replicate 8 0)).wf = true := by decide

theorem test_witness_EveryCommandGetsOneResponseInOrder :
    (sample .empty 0 0 [.command 1, .reset, .command 3]).inbox = [.command 1, .reset] ++ [.command 3] ∧
    (sample .empty 0 0 [.command 1, .reset]).inbox = [.command 1] ++ .reset :: [] ∧ decode 3 = .command .digest64 ∧
    (sample .empty 0 0 []).inbox = [] := by decide

theorem test_witness_ResetEmptiesTheBlock :
    (sample .finalized 0 0 [.reset]).inbox = [.reset] ∧
    ∃ t, step (sample .faulted 0 0 [.command 1]) = .next t ∧ ∀ q, (sample .faulted 0 0 [.command 1]).inbox ≠ .reset :: q :=
  ⟨rfl, _, rfl, fun _ h => by cases h⟩

theorem test_witness_StepKeepsTheInvariant :
    (sample .absorbing 7 0x77777777777777 [.command 0x82]).Inv ∧ (sample .finalized 3 0x0300000000636261 []).Inv ∧
    ∃ t, step (sample .absorbing 7 0x77777777777777 [.command 0x82]) = .next t :=
  ⟨by decide, by decide, _, rfl⟩

theorem test_witness_HiddenRegistersNeverShow :
    (sample .finalized 3 5 [.command 1]).Indistinguishable (sample .finalized 9 0 [.command 1]) ∧
    (sample .absorbing 259 5 []).Indistinguishable (sample .absorbing 3 5 []) :=
  ⟨⟨rfl, rfl, rfl, rfl, by decide, by decide, by decide⟩, ⟨rfl, rfl, rfl, rfl, by decide, by decide, by decide⟩⟩

theorem test_witness_FinalizedIsSetByDigestsAlone :
    (∃ t, step (sample .absorbing 0 0 [.command 0x03]) = .next t ∧ t.finalized = true) ∧
    (∃ t, step (sample .finalized 0 0 [.command 0x01]) = .next t ∧ t.finalized = false) ∧
    (∃ t, step (sample .finalized 0 0 [.reset]) = .next t ∧ t.finalized = false) ∧
    ∃ t, step (sample .finalized 0 0 [.command 0x00]) = .next t ∧ t.finalized = false :=
  ⟨⟨_, rfl, rfl⟩, ⟨_, rfl, rfl⟩, ⟨_, rfl, rfl⟩, ⟨_, rfl, rfl⟩⟩

theorem test_witness_LanesChangeOnlyByTheirWriters :
    ∃ t, step (sample .absorbing 7 0x77777777777777 [.command 0x12]) = .next t ∧
      t.lanes ≠ (sample .absorbing 7 0x77777777777777 [.command 0x12]).lanes :=
  ⟨_, rfl, by decide⟩

theorem test_witness_CommandsLeaveTheRestUnchanged :
    (∃ t, exec (.absorb [1]) (sample .absorbing 6 0 []) = .next t) ∧
    (sample .absorbing 6 0 []).cnt.toNat % 8 + [(1 : Byte)].length < 8 ∧
    (∃ t, exec (.construct 1 2) (sample .faulted 6 0 []) = .next t) ∧
    ∃ t, exec .digest64 (sample .empty 6 0 []) = .next t :=
  ⟨⟨_, rfl⟩, by decide, ⟨_, rfl⟩, ⟨_, rfl⟩⟩

theorem test_witness_ConstantsAreParameters :
    (∃ t, step (sample .empty 0 0 [.command 1]) = .next t) ∧
    (∃ t, exec (.absorb [1]) (sample .absorbing 6 0 []) = .next t) ∧ (∀ k0 k1, Instr.absorb [1] ≠ .construct k0 k1) ∧
    threeBeats.wf = true :=
  ⟨⟨_, rfl⟩, ⟨_, rfl⟩, fun _ _ h => (by cases h), by decide⟩

theorem test_witness_BlocksShareNothing :
    (0 : Fin 2) ≠ 1 ∧
    ∃ a ab, stepBlock #v[sample .empty 0 0 [.command 1], sample .faulted 0 0 [.reset]] 0 = .next a ∧
      stepBlock a 1 = .next ab :=
  ⟨by decide, _, _, rfl, rfl⟩

end Sys2Proof.Tests
end

section
/-! O10: the byte view of a word as a number (00_scope.md R12), beside the lemmas of Laws/Bytes. -/

namespace Sys2Proof

/-- The value of `le64`: its bytes are the digits to base 256, the first the least significant (00_scope.md R12). -/
theorem toNat_le64 (bs : List Byte) (h : bs.length ≤ 8) :
    (le64 bs).toNat = Nat.ofDigits 256 (bs.map BitVec.toNat) := by
  induction bs with
  | nil => rfl
  | cons b bs ih =>
    have hlen : bs.length ≤ 7 := Nat.le_of_succ_le_succ h
    have hlt : Nat.ofDigits 256 (bs.map BitVec.toNat) < 256 ^ 7 := by
      calc Nat.ofDigits 256 (bs.map BitVec.toNat)
          < 256 ^ (bs.map BitVec.toNat).length := Nat.ofDigits_lt_base_pow_length (by decide) (by
            intro d hd
            obtain ⟨c, -, rfl⟩ := List.mem_map.mp hd
            exact c.isLt)
        _ ≤ 256 ^ 7 := Nat.pow_le_pow_right (by decide) (by simpa using hlen)
    have hb := b.isLt
    rw [le64, BitVec.toNat_add, BitVec.toNat_shiftLeft, ih (by omega), List.map_cons, Nat.ofDigits_cons,
      BitVec.toNat_setWidth, Nat.shiftLeft_eq]
    omega

/-- Settles O10: the slice bit by bit, the other bytes after a `setbyte`, the two inverses, and `le64` as a number in
base 256. -/
theorem wordsAreLittleEndianBytes : Obligations.WordsAreLittleEndianBytes := by
  refine ⟨fun w i k _ hk => ?_, fun w b i j _ hj => byteAt_setByte w i j b hj, bytesLe_le64, le64_bytesLe,
    fun b0 b1 b2 b3 b4 b5 b6 b7 => ?_⟩
  · rw [byteAt_getLsbD, decide_eq_true hk, Bool.true_and]
  · rw [toNat_le64 _ (by simp)]
    simp only [List.map_cons, List.map_nil, Nat.ofDigits_cons, Nat.ofDigits_nil]
    omega

end Sys2Proof
end

section
/-! What a presented command does: the decoder reads back what the encoder wrote (30_encoding.md R71 to R75), and the
step then runs the command. -/

namespace Sys2Proof.Machine

/-- The bytes of a well-formed ABSORB fit one beat (30_encoding.md R74). -/
theorem wf_absorb (bytes : List Byte) : (Instr.absorb bytes).wf = true ↔ bytes.length ≤ 8 :=
  decide_eq_true_iff

theorem presentAll_cons (i : Instr) (is : List Instr) :
    presentAll (i :: is) = .command (encode i) :: presentAll is := rfl

theorem presentAll_append (is js : List Instr) : presentAll (is ++ js) = presentAll is ++ presentAll js :=
  List.map_append

/-- The decoder reads back every well-formed command. -/
theorem decode_encode (i : Instr) (h : i.wf = true) : decode (encode i) = .command i := by
  cases i with
  | construct k0 k1 => simp [decode_op_one, encode]
  | absorb bytes =>
    have hlen : bytes.length ≤ 8 := (wf_absorb bytes).mp h
    have hmod : bytes.length % 16 = bytes.length := Nat.mod_eq_of_lt (by omega)
    rw [decode_op_two _ (by simp [encode])]
    simp [encode, hmod, hlen, beatBytes, take_bytesLe_le64]
  | digest64 => simp [decode_op_three, encode, decodeNoOperand]
  | digest128 => simp [decode_op_four, encode, decodeNoOperand]

/-- The same block with these events to come and these responses given. -/
def State.withPort (s : State) (q : List Event) (rs : List Response) : State := { s with inbox := q, responses := rs }

section
variable (s : State) (q : List Event) (rs : List Response)

@[simp] theorem State.withPort_phase : (s.withPort q rs).phase = s.phase := rfl
@[simp] theorem State.withPort_lanes : (s.withPort q rs).lanes = s.lanes := rfl
@[simp] theorem State.withPort_inbox : (s.withPort q rs).inbox = q := rfl
@[simp] theorem State.withPort_responses : (s.withPort q rs).responses = rs := rfl
@[simp] theorem State.withPort_consts : (s.withPort q rs).consts = s.consts := rfl
@[simp] theorem State.withPort_respond (r : Response) : (s.withPort q rs).respond r = s.withPort q (rs ++ [r]) := rfl
@[simp] theorem State.withPort_self : s.withPort s.inbox s.responses = s := rfl
@[simp] theorem construct_withPort (k0 k1 : Word) :
    construct k0 k1 (s.withPort q rs) = (construct k0 k1 s).withPort q (rs ++ [.done]) := rfl
@[simp] theorem finalize_withPort : finalize (s.withPort q rs) = (finalize s).withPort q rs := rfl

end

/-- A well-formed command presented next, and legal, has its effect. -/
theorem step_withPort {s : State} {i : Instr} (q : List Event) (rs : List Response) (hwf : i.wf = true)
    (hl : legality s.phase (.command i) = none) :
    step (s.withPort (.command (encode i) :: q) rs) = .next (effect i (s.withPort q rs)) := by
  rw [step_command _ (encode i) q rfl, decode_encode i hwf, State.withPort_phase, hl]
  rfl

/-- Every step answers a next state (70_reset_and_hazards.md R243). -/
theorem exists_step_eq_next (s : State) : ∃ t, step s = .next t := by
  match hi : s.inbox with
  | [] => exact ⟨_, step_nil s hi⟩
  | .reset :: q => exact ⟨_, step_reset s q hi⟩
  | .command w :: q => exact ⟨_, step_command s w q hi⟩

/-- A run of `j + k` steps is a run of `j` steps and then one of `k`. -/
theorem runSteps_add {s t : State} (j k : Nat) (h : s.runSteps j = .next t) :
    s.runSteps (j + k) = t.runSteps k := by
  induction j generalizing s with
  | zero => cases h; rw [Nat.zero_add]
  | succ j ih =>
    obtain ⟨s', hs⟩ := exists_step_eq_next s
    rw [runSteps_succ j hs] at h
    rw [Nat.succ_add, runSteps_succ _ hs, ih h]

end Sys2Proof.Machine
end

section
/-! A run of ABSORB beats: it is one UPDATE of their concatenation (42_streaming_hasher.md R136). -/

namespace Sys2Proof.Machine

/-- UPDATE of nothing changes nothing under 10_state.md R30 (20_memory.md R56). -/
theorem update_nil (s : State) (h : s.zeroAboveLive) : update [] s = s := by
  have hlt : s.liveBytes.length < 8 := by rw [s.length_liveBytes]; exact s.fill_lt
  rw [update_eq [] s h, List.append_nil, absorbedLanes_of_lt _ _ hlt, tailWord, messageTail_of_lt _ hlt,
    ← s.pending_eq_le64_liveBytes h]
  simp

/-- Two UPDATEs are the UPDATE of the two byte sequences together (42_streaming_hasher.md R136). -/
theorem update_append (a b : List Byte) (s : State) (h : s.zeroAboveLive) :
    update (a ++ b) s = update b (update a s) := by
  rw [update_eq b _ (zeroAboveLive_update a s h), liveBytes_update a s h, update_eq a s h, update_eq (a ++ b) s h]
  simp only [tailWord, ← List.append_assoc, ← absorbedLanes_append, ← messageTail_append, List.length_append,
    BitVec.ofNat_add, BitVec.add_assoc]

/-- UPDATE does not read the events to come or the responses given. -/
theorem update_withPort (bs : List Byte) (s : State) (q : List Event) (rs : List Response) (h : s.zeroAboveLive) :
    update bs (s.withPort q rs) = (update bs s).withPort q rs := by
  rw [update_eq bs s h, update_eq bs (s.withPort q rs) h]
  rfl

/-- A beat presented next is one UPDATE of its bytes, answered DONE (42_streaming_hasher.md R135). -/
theorem step_absorb {b : List Byte} {s : State} (q : List Event) (rs : List Response) (hb : b.length ≤ 8)
    (hp : s.phase = .absorbing) (hz : s.zeroAboveLive) :
    step (s.withPort (.command (encode (.absorb b)) :: q) rs) = .next ((update b s).withPort q (rs ++ [.done])) := by
  have hlegal : legality s.phase (.command (.absorb b)) = none := by rw [hp, legality_absorbing]
  rw [step_withPort q rs ((wf_absorb b).mpr hb) hlegal, effect, absorb, update_withPort b s q rs hz,
    State.withPort_respond]

/-- Beats presented one after another are one UPDATE of their concatenation, each answered DONE (42_streaming_hasher.md
R136). -/
theorem runSteps_absorbBeats (beats : List (List Byte)) (s : State) (q : List Event) (rs : List Response)
    (hwf : ∀ b ∈ beats, b.length ≤ 8) (hp : s.phase = .absorbing) (hz : s.zeroAboveLive) :
    (s.withPort (presentAll (beats.map .absorb) ++ q) rs).runSteps beats.length =
      .next ((update beats.flatten s).withPort q (rs ++ List.replicate beats.length .done)) := by
  induction beats generalizing s rs with
  | nil => simp [runSteps_zero, presentAll, update_nil s hz]
  | cons b bs ih =>
    obtain ⟨hb, hbs⟩ := List.forall_mem_cons.mp hwf
    have hp' : (update b s).phase = .absorbing := (update_frame b s).1.trans hp
    rw [List.map_cons, presentAll_cons, List.cons_append, List.length_cons,
      runSteps_succ _ (step_absorb _ rs hb hp hz), ih _ _ hbs hp' (zeroAboveLive_update b s hz), List.flatten_cons,
      update_append _ _ _ hz, List.replicate_succ, List.append_assoc, List.singleton_append]

end Sys2Proof.Machine
end

section
/-! A session answers the hash of its message over the block's constants (43_finalization_digest.md R161, R166). -/

namespace Sys2Proof.Machine

/-- Writing byte 7 of a word that has none adds it on top. -/
theorem setByte_seven_eq_add (w : Word) (b : Byte) (h : byteAt w 7 = 0) :
    setByte w 7 b = w + (b.setWidth 64 <<< 56) := by
  have hw : ∀ k, 56 ≤ k → k < 64 → w.getLsbD k = false := fun k h56 h64 => by
    have hbit := byteAt_getLsbD w 7 (k - 56)
    have hk : 8 * 7 + (k - 56) = k := by omega
    have h8 : k - 56 < 8 := by omega
    simpa [h, hk, h8] using hbit.symm
  have hdisj : w &&& (b.setWidth 64 <<< 56) = 0 := by
    apply BitVec.eq_of_getLsbD_eq
    intro k hk
    by_cases h56 : k < 56
    · simp [h56]
    · simp [hw k (by omega) hk]
  rw [BitVec.add_eq_or_of_and_eq_zero _ _ hdisj]
  apply BitVec.eq_of_getLsbD_eq
  intro k hk
  rw [setByte_getLsbD _ _ _ _ hk, BitVec.getLsbD_or]
  by_cases h56 : k < 56
  · rw [if_neg (by omega)]
    simp [h56]
  · have hmod : k % 8 = k - 56 := by omega
    rw [if_pos (by omega), hmod, hw k (by omega) hk]
    simp [hk, h56]

/-- The word FINALIZE injects is the buffer and, on top, the length byte (43_finalization_digest.md R161). -/
theorem setByte_pending_length (s : State) (h : s.zeroAboveLive) :
    setByte s.pending 7 (s.cnt.setWidth 8) = s.pending + (BitVec.ofNat 64 (s.cnt.toNat % 256) <<< 56) := by
  have htop : byteAt s.pending 7 = 0 := byteAt_of_div_eq_zero _ _ _ h (Nat.le_of_lt_succ s.fill_lt)
  have hlen : (s.cnt.setWidth 8).setWidth 64 = BitVec.ofNat 64 (s.cnt.toNat % 256) := by
    apply BitVec.eq_of_toNat_eq
    simp
  rw [setByte_seven_eq_add _ _ htop, hlen]

/-- CONSTRUCT leaves an empty buffer (42_streaming_hasher.md R130). -/
theorem zeroAboveLive_construct (k0 k1 : Word) (s : State) : (construct k0 k1 s).zeroAboveLive := Nat.zero_div _

/-- UPDATE right after CONSTRUCT in closed form (42_streaming_hasher.md R137). -/
theorem update_construct (k0 k1 : Word) (m : List Byte) (s : State) :
    update m (construct k0 k1 s) = { construct k0 k1 s with
      lanes := absorbedLanes (keyedLanes s.consts k0 k1) m
      cnt := BitVec.ofNat 64 m.length
      pending := tailWord m } := by
  have hlive : (construct k0 k1 s).liveBytes = [] := rfl
  rw [update_eq m _ (zeroAboveLive_construct k0 k1 s), hlive, List.nil_append, construct_lanes, construct_cnt,
    BitVec.ofNat_eq_ofNat, BitVec.zero_add]

/-- CONSTRUCT, UPDATE and FINALIZE leave the hash's lanes (43_finalization_digest.md R166). -/
theorem finalize_update_construct_lanes (k0 k1 : Word) (m : List Byte) (s : State) :
    (finalize (update m (construct k0 k1 s))).lanes = hashLanes s.consts k0 k1 m := by
  have hz := zeroAboveLive_update m _ (zeroAboveLive_construct k0 k1 s)
  have hmod : (BitVec.ofNat 64 m.length).toNat % 256 = m.length % 256 := by
    rw [BitVec.toNat_ofNat]
    exact Nat.mod_mod_of_dvd _ (by decide)
  rw [finalize_lanes, setByte_pending_length _ hz, update_construct, hmod]
  rfl

/-- CONSTRUCT and then beats presented one after another: a new key's lanes, with their concatenation absorbed
(42_streaming_hasher.md R130, R136). -/
theorem runSteps_construct_absorbBeats (k0 k1 : Word) (beats : List (List Byte)) (s : State) (q : List Event)
    (rs : List Response) (hwf : ∀ b ∈ beats, b.length ≤ 8) (hf : s.phase ≠ .faulted) :
    (s.withPort (presentAll (.construct k0 k1 :: beats.map .absorb) ++ q) rs).runSteps (beats.length + 1) =
      .next ((update beats.flatten (construct k0 k1 s)).withPort q
        (rs ++ List.replicate (beats.length + 1) .done)) := by
  have hstart := step_withPort (i := .construct k0 k1) (presentAll (beats.map .absorb) ++ q) rs rfl
    (legality_construct s.phase k0 k1 hf)
  rw [effect, construct_withPort] at hstart
  rw [presentAll_cons, List.cons_append, runSteps_succ _ hstart,
    runSteps_absorbBeats beats _ q _ hwf rfl (zeroAboveLive_construct k0 k1 s), List.replicate_succ,
    List.append_assoc, List.singleton_append]

/-- The command that ends a session. -/
def Session.last (u : Session) : Instr := if u.wide then .digest128 else .digest64

/-- The commands of a session in their three parts. -/
theorem Session.commands_eq (u : Session) :
    u.commands = .construct u.k0 u.k1 :: u.beats.map .absorb ++ [u.last] := rfl

theorem Session.length_commands (u : Session) : u.commands.length = u.beats.length + 1 + 1 := by
  simp [Session.commands_eq]

theorem Session.last_wf (u : Session) : u.last.wf = true := by
  unfold Session.last
  cases u.wide <;> rfl

/-- The last command of a session answers its digest when FINALIZE leaves the hash's lanes (43_finalization_digest.md
R162, R163). -/
theorem effect_last_withPort {u : Session} {s : State} {c : Config.InitConstants} (q : List Event)
    (rs : List Response) (h : (finalize s).lanes = hashLanes c u.k0 u.k1 u.message) :
    effect u.last (s.withPort q rs) = (finalize s).withPort q (rs ++ [u.digest c]) := by
  cases hw : u.wide with
  | false =>
    simp only [Session.last, Session.digest, hw, Bool.false_eq_true, if_false, effect, digest64, finalize_withPort,
      State.withPort_respond, State.withPort_lanes, h]
    rfl
  | true =>
    simp only [Session.last, Session.digest, hw, if_true, effect, digest128, finalize_withPort,
      State.withPort_respond, State.withPort_lanes, h]
    rfl

/-- One session, from any state that is not FAULTED: DONE to each command but the last, then the hash of the message
over the block's constants (43_finalization_digest.md R166, 70_reset_and_hazards.md R233). -/
theorem runSteps_session (u : Session) (s : State) (q : List Event) (rs : List Response) (hwf : u.wf = true)
    (hf : s.phase ≠ .faulted) :
    (s.withPort (presentAll u.commands ++ q) rs).runSteps u.commands.length =
      .next ((finalize (update u.message (construct u.k0 u.k1 s))).withPort q (rs ++ u.responses s.consts)) := by
  have hbeats : ∀ b ∈ u.beats, b.length ≤ 8 := fun b hb => of_decide_eq_true (List.all_eq_true.mp hwf b hb)
  have habsorb := runSteps_construct_absorbBeats u.k0 u.k1 u.beats s (presentAll [u.last] ++ q) rs hbeats hf
  have hphase : (update u.message (construct u.k0 u.k1 s)).phase = .absorbing := (update_frame _ _).1
  have hlegal : legality (update u.message (construct u.k0 u.k1 s)).phase (.command u.last) = none := by
    rw [hphase, legality_absorbing]
  have hlast := step_withPort q (rs ++ List.replicate (u.beats.length + 1) .done) u.last_wf hlegal
  rw [effect_last_withPort q _ (finalize_update_construct_lanes u.k0 u.k1 u.message s)] at hlast
  rw [u.length_commands, u.commands_eq, presentAll_append, List.append_assoc, runSteps_add _ 1 habsorb]
  refine (runSteps_succ 0 hlast).trans ?_
  simp [runSteps_zero, Session.responses, List.replicate_succ]

end Sys2Proof.Machine
end

section
/-! O57: the constants are parameters (00_scope.md R9). -/

namespace Sys2Proof.Machine

/-- No step writes the constants. -/
theorem step_consts {s t : State} (h : step s = .next t) : t.consts = s.consts := by
  obtain ⟨-, rfl⟩ | ⟨q, -, rfl⟩ | ⟨w, q, c, -, -, rfl⟩ | ⟨w, q, i, -, -, -, rfl⟩ := step_cases h
  · rfl
  · rfl
  · rfl
  · obtain ⟨-, -, hc, -⟩ := effect_frame i (s.withInbox q)
    exact hc

/-- No command writes the constants. -/
theorem exec_consts {i : Instr} {s t : State} (h : exec i s = .next t) : t.consts = s.consts := by
  cases hl : legality s.phase (.command i) with
  | some c => rw [exec_of_fault i s c hl] at h; cases h; rfl
  | none =>
    rw [exec_of_legal i s hl] at h; cases h
    obtain ⟨-, -, hc, -⟩ := effect_frame i s
    exact hc

/-- No command but CONSTRUCT reads the constants. -/
theorem exec_withConstants {i : Instr} {s t : State} (c : Config.InitConstants) (hi : ∀ k0 k1, i ≠ .construct k0 k1)
    (h : exec i s = .next t) : exec i (s.withConstants c) = .next (t.withConstants c) := by
  cases hl : legality s.phase (.command i) with
  | some cause =>
    rw [exec_of_fault i s cause hl] at h; cases h
    exact exec_of_fault i (s.withConstants c) cause hl
  | none =>
    rw [exec_of_legal i s hl] at h; cases h
    rw [exec_of_legal i (s.withConstants c) hl, effect_withConstants i s c hi]

/-- Settles O57: no step and no command writes the constants, CONSTRUCT alone reads them, and the session run from reset
answers over whatever they are. -/
theorem constantsAreParameters : Obligations.ConstantsAreParameters := by
  refine ⟨fun s t => step_consts, fun i s t => exec_consts, fun i s t c hi => exec_withConstants c hi,
    fun c u hwf => ?_⟩
  have hempty : (State.reset.withConstants c).phase ≠ .faulted := nofun
  have hrun := runSteps_session u (State.reset.withConstants c) [] [] hwf hempty
  obtain ⟨-, -, -, -, hconsts, -⟩ := update_frame u.message (construct u.k0 u.k1 (State.reset.withConstants c))
  exact ⟨_, hrun, rfl, hconsts⟩

end Sys2Proof.Machine
end

section
/-! Which command is legal where, and what a command word can carry (60_exceptions.md R201, 30_encoding.md R74). -/

namespace Sys2Proof.Machine

/-- Every command but CONSTRUCT is legal in ABSORBING alone. -/
theorem absorbing_of_legal {p : Phase} {i : Instr} (hl : legality p (.command i) = none)
    (hi : ∀ k0 k1, i ≠ .construct k0 k1) : p = .absorbing := by
  obtain ⟨j, hj, ⟨-, k0, k1, rfl⟩ | hp⟩ := legality_eq_none p _ hl
  · cases hj
    exact absurd rfl (hi k0 k1)
  · exact hp

/-- What a command word decodes to is well-formed: an ABSORB has at most eight bytes. -/
theorem wf_of_decode {w : CmdWord} {i : Instr} (h : decode w = .command i) : i.wf = true := by
  cases i with
  | construct k0 k1 => rfl
  | digest64 => rfl
  | digest128 => rfl
  | absorb bytes =>
    rw [wf_absorb]
    obtain hop | hop | hop | hop | hop := op_cases w
    · rw [decode_reserved w hop] at h
      cases h
    · rw [decode_op_one w hop] at h
      split at h <;> cases h
    · rw [decode_op_two w hop] at h
      split at h
      · cases h
      · split at h
        · cases h
          rw [length_beatBytes _ _ (by omega)]
          omega
        · cases h
    · rw [decode_op_three w hop, decodeNoOperand] at h
      split at h <;> cases h
    · rw [decode_op_four w hop, decodeNoOperand] at h
      split at h <;> cases h

end Sys2Proof.Machine
end

section
/-! O51, O50: the invariant of the block (10_state.md R30, 43_finalization_digest.md R160, R161). -/

namespace Sys2Proof.Machine

/-- Writing byte 7 leaves the seven bytes below it, as a number. -/
theorem setByte_seven_mod (w : Word) (b : Byte) (h : byteAt w 7 = 0) :
    (setByte w 7 b).toNat % 2 ^ 56 = w.toNat % 2 ^ 56 := by
  rw [setByte_seven_eq_add w b h, BitVec.toNat_add, BitVec.toNat_shiftLeft, Nat.shiftLeft_eq]
  omega

/-- FINALIZE turns a buffer with zeros above its live bytes into the final word (43_finalization_digest.md R161). -/
theorem holdsFinalWord_finalize (s : State) (h : s.zeroAboveLive) : (finalize s).holdsFinalWord := by
  have htop : byteAt s.pending 7 = 0 := byteAt_of_div_eq_zero _ _ _ h (Nat.le_of_lt_succ s.fill_lt)
  constructor
  · rw [finalize_pending, finalize_cnt, byteAt_setByte _ _ _ _ (by decide), if_pos rfl]
  · have hle : s.pending.toNat % 2 ^ 56 / 2 ^ (8 * s.fill) ≤ s.pending.toNat / 2 ^ (8 * s.fill) :=
      Nat.div_le_div_right (Nat.mod_le _ _)
    rw [finalize_pending, setByte_seven_mod _ _ htop]
    exact Nat.le_zero.mp (hle.trans_eq h)

/-- A digest command's FINALIZE keeps the invariant, whatever it then answers. -/
theorem inv_finalize_respond (s : State) (r : Response) (h : s.zeroAboveLive) : ((finalize s).respond r).Inv :=
  ⟨nofun, fun _ => holdsFinalWord_finalize s h⟩

/-- A legal command's effect keeps the invariant. -/
theorem inv_effect {i : Instr} {s : State} (hl : legality s.phase (.command i) = none) (h : s.Inv) :
    (effect i s).Inv := by
  obtain ⟨habsorbing, -⟩ := h
  cases i with
  | construct k0 k1 => exact ⟨fun _ => zeroAboveLive_construct k0 k1 s, nofun⟩
  | absorb bytes =>
    have hp : s.phase = .absorbing := absorbing_of_legal hl nofun
    have hp' : (effect (.absorb bytes) s).phase = .absorbing := (update_frame bytes s).1.trans hp
    refine ⟨fun _ => zeroAboveLive_update bytes s (habsorbing hp), fun hf => ?_⟩
    rw [hp'] at hf
    cases hf
  | digest64 => exact inv_finalize_respond s _ (habsorbing (absorbing_of_legal hl nofun))
  | digest128 => exact inv_finalize_respond s _ (habsorbing (absorbing_of_legal hl nofun))

/-- Settles O51: waiting changes nothing, a reset and a fault lead to phases of which the invariant says nothing, and a
legal command keeps it. -/
theorem stepKeepsTheInvariant : Obligations.StepKeepsTheInvariant := by
  intro s t hinv hstep
  obtain ⟨-, rfl⟩ | ⟨q, -, rfl⟩ | ⟨w, q, c, -, -, rfl⟩ | ⟨w, q, i, -, -, hl, rfl⟩ := step_cases hstep
  · exact hinv
  · exact ⟨nofun, nofun⟩
  · exact ⟨nofun, nofun⟩
  · exact inv_effect (s := s.withInbox q) hl hinv

/-- Settles O50: the phase is EMPTY, of which the invariant says nothing. -/
theorem invariantHoldsAtReset : Obligations.InvariantHoldsAtReset :=
  ⟨nofun, nofun⟩

end Sys2Proof.Machine
end

section
/-! O30: the live bytes of the buffer (10_state.md R31). -/

namespace Sys2Proof.Machine

/-- The tail of a message is its last `length mod 8` bytes. -/
theorem messageTail_eq_drop (m : List Byte) : messageTail m = m.drop (m.length - m.length % 8) := by
  have hlen : 8 * (m.length / 8) = m.length - m.length % 8 := by omega
  rw [messageTail, hlen]

/-- Settles O30: the live bytes after UPDATE are the tail of the old ones followed by the new ones. -/
theorem liveBytesAreTheLastAbsorbed : Obligations.LiveBytesAreTheLastAbsorbed := by
  intro bytes s h
  have hfill : (update bytes s).cnt.toNat % 8 = (s.liveBytes ++ bytes).length % 8 := by
    rw [List.length_append, s.length_liveBytes]
    exact fill_update bytes s
  refine ⟨(update bytes s).length_liveBytes, ?_⟩
  rw [hfill, ← messageTail_eq_drop]
  exact liveBytes_update bytes s h

end Sys2Proof.Machine
end

section
/-! O52: what no host can see (10_state.md R28, R36, R37). UPDATE and FINALIZE read the lanes, the buffer and the low
byte of the counter, and nothing else. -/

namespace Sys2Proof.Machine

/-- Counters that agree modulo 256 have the same low byte. -/
theorem setWidth_eight_congr {c d : Count} (h : c.toNat % 256 = d.toNat % 256) : c.setWidth 8 = d.setWidth 8 := by
  apply BitVec.eq_of_toNat_eq
  rw [BitVec.toNat_setWidth, BitVec.toNat_setWidth]
  exact h

/-- Counters that agree modulo 256 still do so after the same number of bytes. -/
theorem cnt_add_mod_congr {c d : Count} (n : Nat) (h : c.toNat % 256 = d.toNat % 256) :
    (c + BitVec.ofNat 64 n).toNat % 256 = (d + BitVec.ofNat 64 n).toNat % 256 := by
  simp only [BitVec.toNat_add, BitVec.toNat_ofNat]
  omega

/-- The lanes and the buffer after UPDATE depend on the lanes, the buffer and `cnt mod 8` alone. -/
theorem update_congr (bs : List Byte) {s t : State} (hl : s.lanes = t.lanes) (hp : s.pending = t.pending)
    (hf : s.fill = t.fill) :
    (update bs s).lanes = (update bs t).lanes ∧ (update bs s).pending = (update bs t).pending := by
  by_cases h0 : s.fill = 0
  · rw [update_of_fill_zero bs s h0, update_of_fill_zero bs t (hf ▸ h0), absorbWords_eq, absorbWords_eq, hl]
    exact ⟨rfl, rfl⟩
  · by_cases hs : s.fill + bs.length < 8
    · rw [update_of_short bs s h0 hs, update_of_short bs t (hf ▸ h0) (hf ▸ hs), hp, hf]
      exact ⟨hl, rfl⟩
    · have hge : 8 ≤ s.fill + bs.length := Nat.le_of_not_lt hs
      rw [update_of_carry bs s h0 hge, update_of_carry bs t (hf ▸ h0) (hf ▸ hge), absorbWords_eq, absorbWords_eq,
        hl, hp, hf]
      exact ⟨rfl, rfl⟩

/-- States that agree at the port and in their phase, which is not ABSORBING, are indistinguishable. -/
theorem indistinguishable_of_not_absorbing {s t : State} (hc : s.consts = t.consts) (hp : s.phase = t.phase)
    (hi : s.inbox = t.inbox) (hr : s.responses = t.responses) (hn : s.phase ≠ .absorbing) : s.Indistinguishable t :=
  ⟨hc, hp, hi, hr, fun h => absurd h hn, fun h => absurd h hn, fun h => absurd h hn⟩

namespace State.Indistinguishable

variable {s t : State} (h : s.Indistinguishable t)
include h

theorem withInbox (q : List Event) : (s.withInbox q).Indistinguishable (t.withInbox q) :=
  { h with inbox := rfl }

theorem raise (c : Cause) : (s.raise c).Indistinguishable (t.raise c) :=
  indistinguishable_of_not_absorbing h.consts rfl h.inbox (by simp [h.responses]) nofun

theorem resetEvent : (resetEvent s).Indistinguishable (resetEvent t) :=
  indistinguishable_of_not_absorbing h.consts rfl h.inbox h.responses nofun

theorem respond (r : Response) : (s.respond r).Indistinguishable (t.respond r) :=
  { h with responses := by simp [h.responses] }

theorem construct (k0 k1 : Word) : (construct k0 k1 s).Indistinguishable (construct k0 k1 t) where
  consts := h.consts
  phase := rfl
  inbox := h.inbox
  responses := by simp [h.responses]
  lanes _ := congrArg (keyedLanes · k0 k1) h.consts
  pending _ := rfl
  cnt _ := rfl

theorem update (bs : List Byte) (ha : s.phase = .absorbing) : (update bs s).Indistinguishable (update bs t) := by
  have hcnt := h.cnt ha
  have hfill : s.fill = t.fill := by
    simp only [State.fill]
    omega
  obtain ⟨hlanes, hpending⟩ := update_congr bs (h.lanes ha) (h.pending ha) hfill
  obtain ⟨sp, si, sr, -, sc, sn⟩ := update_frame bs s
  obtain ⟨tp, ti, tr, -, tc, tn⟩ := update_frame bs t
  exact {
    consts := by rw [sc, tc, h.consts]
    phase := by rw [sp, tp, h.phase]
    inbox := by rw [si, ti, h.inbox]
    responses := by rw [sr, tr, h.responses]
    lanes := fun _ => hlanes
    pending := fun _ => hpending
    cnt := fun _ => by rw [sn, tn, cnt_add_mod_congr _ hcnt] }

theorem finalize : (finalize s).Indistinguishable (finalize t) :=
  indistinguishable_of_not_absorbing h.consts (by simp) h.inbox h.responses nofun

theorem finalize_lanes (ha : s.phase = .absorbing) : (Machine.finalize s).lanes = (Machine.finalize t).lanes := by
  rw [Machine.finalize_lanes, Machine.finalize_lanes, h.lanes ha, h.pending ha, setWidth_eight_congr (h.cnt ha)]

/-- A legal command does the same, as far as a host can tell, to two states that no host can tell apart. -/
theorem effect {i : Instr} (hl : legality s.phase (.command i) = none) :
    (effect i s).Indistinguishable (effect i t) := by
  cases i with
  | construct k0 k1 => exact h.construct k0 k1
  | absorb bytes => exact (h.update bytes (absorbing_of_legal hl nofun)).respond .done
  | digest64 =>
    rw [Machine.effect, digest64, digest64, h.finalize_lanes (absorbing_of_legal hl nofun)]
    exact h.finalize.respond _
  | digest128 =>
    rw [Machine.effect, digest128, digest128, h.finalize_lanes (absorbing_of_legal hl nofun)]
    exact h.finalize.respond _

/-- One step: the same event meets the same legality check on both sides, so both fault or both run the command. -/
theorem step : ∃ s' t', step s = .next s' ∧ step t = .next t' ∧ s'.Indistinguishable t' := by
  match hi : s.inbox with
  | [] => exact ⟨s, t, step_nil s hi, step_nil t (h.inbox ▸ hi), h⟩
  | .reset :: q => exact ⟨_, _, step_reset s q hi, step_reset t q (h.inbox ▸ hi), (h.withInbox q).resetEvent⟩
  | .command w :: q =>
    refine ⟨_, _, step_command s w q hi, step_command t w q (h.inbox ▸ hi), ?_⟩
    rw [← h.phase]
    cases hl : legality s.phase (decode w) with
    | some c => exact (h.withInbox q).raise c
    | none =>
      obtain ⟨i, hd, -⟩ := legality_eq_none _ _ hl
      rw [hd] at hl ⊢
      exact (h.withInbox q).effect hl

end State.Indistinguishable

/-- Settles O52, by induction on the number of steps: each step keeps the two states indistinguishable. -/
theorem hiddenRegistersNeverShow : Obligations.HiddenRegistersNeverShow := by
  intro s t k h
  induction k generalizing s t with
  | zero => exact ⟨s, t, runSteps_zero s, runSteps_zero t, h⟩
  | succ k ih =>
    obtain ⟨s', t', hs, ht, h'⟩ := h.step
    rw [runSteps_succ k hs, runSteps_succ k ht]
    exact ih s' t' h'

end Sys2Proof.Machine
end

section
/-! O53: the flag `finalized` (10_state.md R25). -/

namespace Sys2Proof.Machine

theorem finalized_eq_true_iff (s : State) : s.finalized = true ↔ s.phase = .finalized := beq_iff_eq

theorem finalized_eq_false_iff (s : State) : s.finalized = false ↔ s.phase ≠ .finalized := beq_eq_false_iff_ne

/-- Of the legal commands, the digest commands alone end in FINALIZED, and they run in ABSORBING. -/
theorem digest_of_effect_phase {i : Instr} {s : State} (hl : legality s.phase (.command i) = none)
    (h : (effect i s).phase = .finalized) : s.phase = .absorbing ∧ (i = .digest64 ∨ i = .digest128) := by
  cases i with
  | construct k0 k1 => cases h
  | absorb bytes =>
    have hp : s.phase = .absorbing := absorbing_of_legal hl nofun
    have hp' : (effect (.absorb bytes) s).phase = s.phase := (update_frame bytes s).1
    rw [hp', hp] at h
    cases h
  | digest64 => exact ⟨absorbing_of_legal hl nofun, .inl rfl⟩
  | digest128 => exact ⟨absorbing_of_legal hl nofun, .inr rfl⟩

/-- In FINALIZED the only legal command is CONSTRUCT. -/
theorem construct_of_legal_finalized {i : Instr} (hl : legality .finalized (.command i) = none) :
    ∃ k0 k1, i = .construct k0 k1 := by
  by_contra hi
  push Not at hi
  cases absorbing_of_legal hl hi

/-- Settles O53, along everything a step can do. -/
theorem finalizedIsSetByDigestsAlone : Obligations.FinalizedIsSetByDigestsAlone := by
  intro s t hstep
  simp only [finalized_eq_true_iff, finalized_eq_false_iff]
  obtain ⟨-, rfl⟩ | ⟨q, hin, rfl⟩ | ⟨w, q, c, -, -, rfl⟩ | ⟨w, q, i, hin, hd, hl, rfl⟩ := step_cases hstep
  · exact ⟨fun hs ht => absurd ht hs, fun hs ht => absurd hs ht⟩
  · exact ⟨fun _ => nofun, fun _ _ => .inl ⟨q, hin⟩⟩
  · exact ⟨fun _ => nofun, fun _ _ => .inr (.inr ⟨c, rfl, rfl⟩)⟩
  · refine ⟨fun _ ht => ?_, fun hs _ => ?_⟩
    · obtain ⟨hp, hi⟩ := digest_of_effect_phase (s := s.withInbox q) hl ht
      refine ⟨hp, w, q, hin, ?_⟩
      rw [hd]
      exact hi.imp (congrArg _) (congrArg _)
    · rw [hs] at hl
      obtain ⟨k0, k1, rfl⟩ := construct_of_legal_finalized hl
      exact .inr (.inl ⟨w, q, k0, k1, hin, hd⟩)

end Sys2Proof.Machine
end

section
/-! O54, O55: who writes the lanes, and what every command leaves (10_state.md R23, R26, R29; 41_block_mixer.md
R121). -/

namespace Sys2Proof.Machine

/-- UPDATE short of a word leaves the lanes, on a word boundary or not. -/
theorem update_lanes_of_short (bs : List Byte) (s : State) (h : s.fill + bs.length < 8) :
    (update bs s).lanes = s.lanes := by
  by_cases h0 : s.fill = 0
  · rw [update_of_fill_zero bs s h0, absorbWords_eq]
    exact absorbedLanes_of_lt _ _ (by omega)
  · rw [update_of_short bs s h0 h]

/-- UPDATE of at most eight bytes that completes a word injects exactly one. -/
theorem update_lanes_of_full (bs : List Byte) (s : State) (hb : bs.length ≤ 8) (h : 8 ≤ s.fill + bs.length) :
    ∃ m, (update bs s).lanes = inject s.lanes m := by
  have hlt := s.fill_lt
  by_cases h0 : s.fill = 0
  · have hw := absorbedLanes_append_word s.lanes bs [] (by omega)
    rw [List.append_nil, absorbedLanes_of_lt _ [] (by decide)] at hw
    exact ⟨le64 bs, by rw [update_of_fill_zero bs s h0, absorbWords_eq, hw]⟩
  · have hrest : (bs.drop (8 - s.fill)).length < 8 := by
      rw [List.length_drop]
      omega
    exact ⟨_, by rw [update_of_carry bs s h0 h, absorbWords_eq, absorbedLanes_of_lt _ _ hrest]⟩

/-- A beat leaves the lanes or injects one word. -/
theorem update_lanes_of_beat (bs : List Byte) (s : State) (hb : bs.length ≤ 8) :
    (update bs s).lanes = s.lanes ∨ ∃ m, (update bs s).lanes = inject s.lanes m := by
  by_cases h : s.fill + bs.length < 8
  · exact .inl (update_lanes_of_short bs s h)
  · exact .inr (update_lanes_of_full bs s hb (Nat.le_of_not_lt h))

/-- Settles O54: a fault leaves the lanes, and a legal command writes them by its own rule. -/
theorem lanesChangeOnlyByTheirWriters : Obligations.LanesChangeOnlyByTheirWriters := by
  intro s t w q hin hstep
  rw [step_command s w q hin] at hstep
  cases hl : legality s.phase (decode w) with
  | some c =>
    rw [hl] at hstep
    cases hstep
    exact .inl rfl
  | none =>
    obtain ⟨i, hd, -⟩ := legality_eq_none _ _ hl
    rw [hl, hd] at hstep
    cases hstep
    rw [hd]
    cases i with
    | construct k0 k1 => exact .inr rfl
    | absorb bytes => exact update_lanes_of_beat bytes (s.withInbox q) ((wf_absorb bytes).mp (wf_of_decode hd))
    | digest64 => exact .inr ⟨_, rfl⟩
    | digest128 => exact .inr ⟨_, rfl⟩

/-- Settles O55: a fault writes the phase and one response alone; a legal command is CONSTRUCT, or runs in ABSORBING. -/
theorem commandsLeaveTheRestUnchanged : Obligations.CommandsLeaveTheRestUnchanged := by
  intro i s t hexec
  cases hl : legality s.phase (.command i) with
  | some c =>
    rw [exec_of_fault i s c hl] at hexec
    cases hexec
    refine ⟨rfl, rfl, rfl, ⟨_, rfl⟩, fun _ _ => ⟨rfl, rfl, rfl⟩, ?_⟩
    cases i with
    | construct k0 k1 => exact fun _ => ⟨rfl, rfl, rfl⟩
    | absorb bytes =>
      intro ha
      rw [ha, legality_absorbing] at hl
      cases hl
    | digest64 => rfl
    | digest128 => rfl
  | none =>
    rw [exec_of_legal i s hl] at hexec
    cases hexec
    obtain ⟨hinbox, hdraws, hconsts, hresponses⟩ := effect_frame i s
    refine ⟨hinbox, hdraws, hconsts, hresponses, fun hn hi => absurd (absorbing_of_legal hl hi) hn, ?_⟩
    cases i with
    | construct k0 k1 =>
      intro hf
      rw [hf, legality_faulted] at hl
      cases hl
    | absorb bytes => exact fun _ => ⟨(update_frame bytes s).1, update_lanes_of_short bytes s⟩
    | digest64 => rfl
    | digest128 => rfl

end Sys2Proof.Machine
end

section
/-! O45, O49, O58: the step on a word, and the state after reset (10_state.md R21, R38). -/

namespace Sys2Proof.Machine

/-- A step on a word that decodes to a command is that command's meaning. -/
theorem step_eq_exec {s : State} {w : CmdWord} {q : List Event} {i : Instr} (hin : s.inbox = .command w :: q)
    (hd : decode w = .command i) : step s = exec i (s.withInbox q) := by
  simp only [step, State.takeEvent, hin, hd]

/-- Settles O45; the second clause is the first for the word the encoder writes. -/
theorem stepRunsTheDecodedCommand : Obligations.StepRunsTheDecodedCommand :=
  ⟨fun _ _ _ _ => step_eq_exec, fun _ _ i hin hwf => step_eq_exec hin (decode_encode i hwf)⟩

/-- Settles O49: CONSTRUCT is legal in EMPTY, and its effect writes each field listed. -/
theorem resetStateIsEmpty : Obligations.ResetStateIsEmpty := by
  refine ⟨rfl, rfl, fun c k0 k1 => ?_⟩
  have hlegal := legality_construct (State.reset.withConstants c).phase k0 k1 nofun
  exact ⟨_, exec_of_legal _ _ hlegal, rfl, rfl, rfl, rfl, rfl, rfl, rfl, rfl⟩

/-- Settles O58: the fields of `State.reset` and of the default constants. -/
theorem resetPortIsIdleWithTheDefaultConstants : Obligations.ResetPortIsIdleWithTheDefaultConstants :=
  ⟨rfl, rfl, rfl, rfl, rfl, rfl⟩

end Sys2Proof.Machine
end

section
/-! O11, O12: words and digests as bytes, little-endian (20_memory.md R52, R53). -/

namespace Sys2Proof.Machine

/-- Settles O11: copying bytes to index 0 of a zero word, `copyTail_le64` with nothing before them. -/
theorem bytewiseAssemblyGivesTheSameWord : Obligations.BytewiseAssemblyGivesTheSameWord :=
  fun bytes _ => copyTail_le64 [] bytes

/-- The lower eight bytes of `{hi, lo}` are those of `lo`, the upper eight those of `hi`. -/
theorem extractByte_append (lo hi : Word) (i : Nat) :
    (hi ++ lo : BitVec 128).extractLsb' (8 * i) 8 = if i < 8 then byteAt lo i else byteAt hi (i - 8) := by
  split
  · exact BitVec.extractLsb'_append_eq_of_add_le (by omega)
  · rw [BitVec.extractLsb'_append_eq_of_le (by omega), byteAt, Nat.mul_sub]

/-- Settles O12: byte `i` of the list is byte `i` of `lo`, or byte `i - 8` of `hi`, and so is byte `i` of `{hi, lo}`. -/
theorem digestBytesAreLittleEndian : Obligations.DigestBytesAreLittleEndian := by
  refine ⟨fun lo hi => ⟨rfl, rfl, fun i h16 => ?_⟩, fun d => ⟨rfl, getElem?_bytesLe d⟩⟩
  rw [extractByte_append, digestBytes128, List.getElem?_append, length_bytesLe]
  split
  · next h8 => exact getElem?_bytesLe lo i h8
  · exact getElem?_bytesLe hi (i - 8) (by omega)

end Sys2Proof.Machine
end

section
/-! O31: an ABSORB of no bytes (20_memory.md R56). -/

namespace Sys2Proof.Machine

/-- Settles O31: ABSORB is legal in ABSORBING, and UPDATE of nothing changes nothing. -/
theorem zeroLengthAbsorbChangesNothing : Obligations.ZeroLengthAbsorbChangesNothing := by
  intro s hp hz
  have hlegal : legality s.phase (.command (.absorb [])) = none := by rw [hp, legality_absorbing]
  rw [exec_of_legal _ s hlegal, effect, absorb, update_nil s hz]
  rfl

end Sys2Proof.Machine
end

section
/-! O47: a step consumes one event, and a run as many as it has steps (10_state.md R21, 20_memory.md R59). -/

namespace Sys2Proof.Machine

/-- A step on a command word consumes it and answers it once. -/
theorem step_command_answers {s : State} {w : CmdWord} {q : List Event} (hin : s.inbox = .command w :: q) :
    ∃ t r, step s = .next t ∧ t.inbox = q ∧ t.responses = s.responses ++ [r] := by
  rw [step_command s w q hin]
  cases hl : legality s.phase (decode w) with
  | some c => exact ⟨_, _, rfl, rfl, rfl⟩
  | none =>
    obtain ⟨i, hd, -⟩ := legality_eq_none _ _ hl
    rw [hd]
    obtain ⟨hinbox, -, -, r, hresponses⟩ := effect_frame i (s.withInbox q)
    exact ⟨_, r, rfl, hinbox, hresponses⟩

/-- A step consumes the next event and answers it exactly when it is a command. -/
theorem step_consumes {s : State} {e : Event} {q : List Event} (hin : s.inbox = e :: q) :
    ∃ t rs, step s = .next t ∧ t.inbox = q ∧ t.responses = s.responses ++ rs ∧
      rs.length = if e.isCommand then 1 else 0 := by
  cases e with
  | command w =>
    obtain ⟨t, r, hstep, hinbox, hresponses⟩ := step_command_answers hin
    exact ⟨t, [r], hstep, hinbox, hresponses, rfl⟩
  | reset => exact ⟨_, [], step_reset s q hin, rfl, (List.append_nil _).symm, rfl⟩

/-- As many steps as the first part of the events is long consume exactly that part and answer each command of it
once. -/
theorem runSteps_consumes {s : State} {es q : List Event} (hin : s.inbox = es ++ q) :
    ∃ t rs, s.runSteps es.length = .next t ∧ t.inbox = q ∧ t.responses = s.responses ++ rs ∧
      rs.length = es.countP Event.isCommand := by
  induction es generalizing s with
  | nil => exact ⟨s, [], runSteps_zero s, hin, (List.append_nil _).symm, rfl⟩
  | cons e es ih =>
    obtain ⟨s', r, hstep, hinbox, hr, hlen⟩ := step_consumes hin
    obtain ⟨t, rs, hrun, hq, hrs, hcount⟩ := ih hinbox
    refine ⟨t, r ++ rs, ?_, hq, ?_, ?_⟩
    · rw [List.length_cons, runSteps_succ _ hstep, hrun]
    · rw [hrs, hr, List.append_assoc]
    · rw [List.length_append, hlen, hcount, List.countP_cons, Nat.add_comm]

/-- A run and one step more. -/
theorem runSteps_snoc {s t u : State} {k : Nat} (hrun : s.runSteps k = .next t) (hstep : step t = .next u) :
    s.runSteps (k + 1) = .next u := by
  rw [runSteps_add k 1 hrun, runSteps_succ 0 hstep, runSteps_zero]

/-- Settles O47: the first part by induction on its length, the next event by what one step does with it. -/
theorem everyCommandGetsOneResponseInOrder : Obligations.EveryCommandGetsOneResponseInOrder := by
  refine ⟨fun s es q hin => ?_, step_nil⟩
  obtain ⟨t, rs, hrun, hq, hrs, hcount⟩ := runSteps_consumes hin
  refine ⟨t, rs, hrun, hq, hrs, hcount, fun e q' he => ?_⟩
  rw [he] at hq
  cases e with
  | command w =>
    obtain ⟨u, r, hstep, hinbox, hr⟩ := step_command_answers hq
    refine ⟨u, hstep, runSteps_snoc hrun hstep, hinbox, r, by rw [hr, hrs], fun i hd => ?_⟩
    exact (step_eq_exec hq hd).symm.trans hstep
  | reset =>
    have hstep := step_reset t q' hq
    exact ⟨_, hstep, runSteps_snoc hrun hstep, rfl, hrs⟩

end Sys2Proof.Machine
end

section
/-! O56: the product of several blocks (20_memory.md R62). -/

namespace Sys2Proof.Machine

/-- A step of block `i` is that block's own step, put back in its place. -/
theorem stepBlock_eq_next_iff {n : Nat} {blocks blocks' : Vector State n} {i : Fin n} :
    stepBlock blocks i = .next blocks' ↔ ∃ t, step blocks[i] = .next t ∧ blocks' = blocks.set i t := by
  obtain ⟨t, ht⟩ := exists_step_eq_next blocks[i]
  simp only [stepBlock, ht, Host.Outcome.next.injEq, exists_eq_left', eq_comm]

/-- Settles O56: writing one place of a vector leaves the others, and two places may be written in either order. -/
theorem blocksShareNothing : Obligations.BlocksShareNothing := by
  refine ⟨fun n blocks blocks' i h => ?_, fun n blocks a ab i j hij ha hab => ?_⟩
  · obtain ⟨t, ht, rfl⟩ := stepBlock_eq_next_iff.mp h
    refine ⟨ht.trans (congrArg _ (Vector.getElem_set_self _).symm), fun j hji => ?_⟩
    exact Vector.getElem_set_ne _ _ (Fin.val_ne_of_ne hji.symm)
  · have hne : i.val ≠ j.val := Fin.val_ne_of_ne hij
    obtain ⟨t, ht, rfl⟩ := stepBlock_eq_next_iff.mp ha
    obtain ⟨u, hu, rfl⟩ := stepBlock_eq_next_iff.mp hab
    have hj : (blocks.set i t)[j] = blocks[j] := Vector.getElem_set_ne _ _ hne
    have hi : (blocks.set j u)[i] = blocks[i] := Vector.getElem_set_ne _ _ hne.symm
    refine ⟨blocks.set j u, stepBlock_eq_next_iff.mpr ⟨u, hj ▸ hu, rfl⟩, ?_⟩
    exact stepBlock_eq_next_iff.mpr ⟨t, hi.symm ▸ ht, Vector.set_comm t u hne⟩

end Sys2Proof.Machine
end

section
/-! O13, O14, O17: the decoder said once, row by row (30_encoding.md R72 to R75), and against the encoder. -/

namespace Sys2Proof

open Machine

/-- The fields of a word that stands for a command: the command's opcode and what its row says of `len`, `a` and `b`
(30_encoding.md R72 to R75). -/
def CmdWord.StandsFor (w : CmdWord) : Instr → Prop
  | .construct k0 k1 => w.op = 1 ∧ w.len = 0 ∧ w.a = k0 ∧ w.b = k1
  | .absorb bytes => w.op = 2 ∧ w.len.toNat ≤ 8 ∧ w.b = 0 ∧ beatBytes w.a w.len.toNat = bytes
  | .digest64 => w.op = 3 ∧ w.len = 0 ∧ w.a = 0 ∧ w.b = 0
  | .digest128 => w.op = 4 ∧ w.len = 0 ∧ w.a = 0 ∧ w.b = 0

/-! What one row's check answers: its command when the row's condition holds, its own reason when not. -/

theorem ite_eq_command_iff (p : Prop) [Decidable p] (i j : Instr) (why : Illegal) :
    (if p then Decoded.command i else .illegal why) = .command j ↔ p ∧ i = j := by
  split <;> simp [*]

theorem ite_eq_illegal_iff (p : Prop) [Decidable p] (i : Instr) (why why' : Illegal) :
    (if p then Decoded.command i else .illegal why) = .illegal why' ↔ ¬p ∧ why = why' := by
  split <;> simp [*]

theorem decodeNoOperand_eq_command_iff (w : CmdWord) (i j : Instr) :
    decodeNoOperand w i = .command j ↔ (w.len = 0 ∧ w.a = 0 ∧ w.b = 0) ∧ i = j :=
  ite_eq_command_iff _ i j _

/-- The decoder reads from a word exactly the command it stands for. -/
theorem decode_eq_command_iff (w : CmdWord) (i : Instr) : decode w = .command i ↔ w.StandsFor i := by
  obtain hop | hop | hop | hop | hop := op_cases w
  · have hne : ∀ n, 1 ≤ n → n ≤ 4 → w.op ≠ BitVec.ofNat 4 n := fun n h1 h4 h => by
      have := (op_eq_iff w n (by omega)).mp h
      omega
    rw [decode_reserved w hop]
    cases i <;> simp [CmdWord.StandsFor, hne]
  · have hop' : w.op = 1 := (op_eq_iff w 1 (by decide)).mpr hop
    rw [decode_op_one w hop, ite_eq_command_iff]
    cases i <;> simp [CmdWord.StandsFor, hop']
  · have hop' : w.op = 2 := (op_eq_iff w 2 (by decide)).mpr hop
    rw [decode_op_two w hop]
    cases i <;> simp [CmdWord.StandsFor, hop', ite_eq_iff]
  · have hop' : w.op = 3 := (op_eq_iff w 3 (by decide)).mpr hop
    rw [decode_op_three w hop, decodeNoOperand_eq_command_iff]
    cases i <;> simp [CmdWord.StandsFor, hop']
  · have hop' : w.op = 4 := (op_eq_iff w 4 (by decide)).mpr hop
    rw [decode_op_four w hop, decodeNoOperand_eq_command_iff]
    cases i <;> simp [CmdWord.StandsFor, hop']

/-- Settles O13: `decode_encode`, one case for each constructor. -/
theorem decodeOfEncodeIsTheCommand : Obligations.DecodeOfEncodeIsTheCommand := decode_encode

/-- The first bytes of the data word, put back into a word, have zeros above them (30_encoding.md R74). -/
theorem byteAt_le64_beatBytes (a : Word) (n j : Nat) (hn : n ≤ 8) (hj : j < 8) :
    byteAt (le64 (beatBytes a n)) j = if j < n then byteAt a j else 0 := by
  rw [byteAt_le64 _ _ hj, List.getD_eq_getElem?_getD]
  split
  · next h => rw [getElem?_beatBytes a n j hn h]; rfl
  · next h => rw [List.getElem?_eq_none (by rw [length_beatBytes a n hn]; omega)]; rfl

theorem ofFields_eq {w : CmdWord} {op len : BitVec 4} {a b : Word} (hop : w.op = op) (hlen : w.len = len)
    (ha : w.a = a) (hb : w.b = b) : CmdWord.ofFields op len a b = w := by
  subst hop hlen ha hb
  exact ofFields_fields w

/-- No field is ignored but the data bytes of an ABSORB: any other command has one word (30_encoding.md R72). -/
theorem encode_eq_of_standsFor {w : CmdWord} {i : Instr} (h : w.StandsFor i) (hi : ∀ bytes, i ≠ .absorb bytes) :
    encode i = w := by
  cases i with
  | absorb bytes => exact absurd rfl (hi bytes)
  | construct k0 k1 => obtain ⟨hop, hlen, ha, hb⟩ := h; exact ofFields_eq hop hlen ha hb
  | digest64 => obtain ⟨hop, hlen, ha, hb⟩ := h; exact ofFields_eq hop hlen ha hb
  | digest128 => obtain ⟨hop, hlen, ha, hb⟩ := h; exact ofFields_eq hop hlen ha hb

/-- Settles O14: the encoder writes the fields the decoder has read, and of an ABSORB's data word the bytes read. -/
theorem encodeOfDecodeIsTheWord : Obligations.EncodeOfDecodeIsTheWord := by
  intro w i h
  refine ⟨wf_of_decode h, ?_⟩
  rw [decode_eq_command_iff] at h
  cases i with
  | construct k0 k1 => simp only [encode_eq_of_standsFor h nofun, and_self]
  | digest64 => simp only [encode_eq_of_standsFor h nofun, and_self]
  | digest128 => simp only [encode_eq_of_standsFor h nofun, and_self]
  | absorb bytes =>
    obtain ⟨hop, hlen, hb, rfl⟩ := h
    have hcount : BitVec.ofNat 4 (beatBytes w.a w.len.toNat).length = w.len := by
      rw [length_beatBytes _ _ hlen, BitVec.ofNat_toNat, BitVec.setWidth_eq]
    simp only [encode, op_ofFields, len_ofFields, a_ofFields, b_ofFields]
    exact ⟨hop.symm, hcount, hb.symm, fun j hj => byteAt_le64_beatBytes w.a _ j hlen hj⟩

/-- Settles O17: the two slices are the fields `a` and `b`. -/
theorem constructOperandsAreTheFields : Obligations.ConstructOperandsAreTheFields :=
  fun w hop hlen => (decode_eq_command_iff w _).mpr ⟨hop, hlen, rfl, rfl⟩

end Sys2Proof
end

section
/-! O15: the opcode map as masks (30_encoding.md R75). -/

namespace Sys2Proof

theorem op_and (w v : CmdWord) : CmdWord.op (w &&& v) = w.op &&& v.op := BitVec.extractLsb'_and

theorem len_and (w v : CmdWord) : CmdWord.len (w &&& v) = w.len &&& v.len := BitVec.extractLsb'_and

theorem a_and (w v : CmdWord) : CmdWord.a (w &&& v) = w.a &&& v.a := BitVec.extractLsb'_and

theorem b_and (w v : CmdWord) : CmdWord.b (w &&& v) = w.b &&& v.b := BitVec.extractLsb'_and

/-- A mask looks at each field by its own field. -/
theorem and_eq_iff_fields (w m v : CmdWord) :
    w &&& m = v ↔ w.op &&& m.op = v.op ∧ w.len &&& m.len = v.len ∧ w.a &&& m.a = v.a ∧ w.b &&& m.b = v.b := by
  rw [← op_and, ← len_and, ← a_and, ← b_and]
  exact ⟨fun h => h ▸ ⟨rfl, rfl, rfl, rfl⟩, fun ⟨ho, hl, ha, hb⟩ => cmdWord_ext ho hl ha hb⟩

theorem selects_iff (r : OpcodeRow) (w : CmdWord) :
    r.selects w = true ↔ w &&& r.maskBits = r.matchBits ∧ w.len.toNat ≤ r.maxLen := by
  simp [OpcodeRow.selects]

theorem exists_instr_iff {P : Instr → Prop} :
    (∃ i, P i) ↔ (∃ k0 k1, P (.construct k0 k1)) ∨ (∃ bytes, P (.absorb bytes)) ∨ P .digest64 ∨ P .digest128 := by
  constructor
  · rintro ⟨i, h⟩
    cases i with
    | construct k0 k1 => exact .inl ⟨k0, k1, h⟩
    | absorb bytes => exact .inr (.inl ⟨bytes, h⟩)
    | digest64 => exact .inr (.inr (.inl h))
    | digest128 => exact .inr (.inr (.inr h))
  · rintro (⟨_, _, h⟩ | ⟨_, h⟩ | h | h) <;> exact ⟨_, h⟩

/-- The rows of the map, mask and match field by field. -/
theorem opcodeRows_eq : opcodeRows =
    [ ⟨"CONSTRUCT", .ofFields 1 0 0 0, .ofFields 15 15 0 0, 15⟩,
      ⟨"ABSORB", .ofFields 2 0 0 0, .ofFields 15 0 0 (-1), 8⟩,
      ⟨"DIGEST64", .ofFields 3 0 0 0, .ofFields 15 15 (-1) (-1), 15⟩,
      ⟨"DIGEST128", .ofFields 4 0 0 0, .ofFields 15 15 (-1) (-1), 15⟩ ] := by decide

/-- A row of the map selects the words that stand for a command of its name. -/
theorem selects_iff_standsFor (w : CmdWord) {r : OpcodeRow} (hr : r ∈ opcodeRows) :
    r.selects w = true ↔ ∃ i, w.StandsFor i ∧ i.mnemonic = r.mnemonic := by
  have hlen : w.len.toNat ≤ 15 := Nat.le_of_lt_succ w.len.isLt
  have hnibble : ∀ x : BitVec 4, x &&& 15#4 = x := fun _ => BitVec.and_allOnes
  have hword : ∀ x : Word, x &&& 0xffffffffffffffff#64 = x := fun _ => BitVec.and_allOnes
  rw [selects_iff, and_eq_iff_fields, exists_instr_iff]
  rw [opcodeRows_eq] at hr
  simp only [List.mem_cons, List.not_mem_nil, or_false] at hr
  obtain rfl | rfl | rfl | rfl := hr
  · simp [hnibble, hlen, CmdWord.StandsFor, Instr.mnemonic]
  · simp [hnibble, hword, CmdWord.StandsFor, Instr.mnemonic, and_assoc, and_comm]
  · simp [hnibble, hword, hlen, CmdWord.StandsFor, Instr.mnemonic]
  · simp [hnibble, hword, hlen, CmdWord.StandsFor, Instr.mnemonic]

/-- Settles O15: a word decodes to one command, so two rows that select it have one name, and the
rows' names differ. -/
theorem decodeAgreesWithTheOpcodeTable : Obligations.DecodeAgreesWithTheOpcodeTable := by
  have hrow : ∀ w : CmdWord, ∀ r ∈ opcodeRows,
      r.selects w = true ↔ ∃ i, decode w = .command i ∧ i.mnemonic = r.mnemonic := fun w r hr => by
    simp only [decode_eq_command_iff, selects_iff_standsFor w hr]
  have hnames : opcodeRows.Pairwise fun r r' => r.mnemonic ≠ r'.mnemonic := by decide
  refine ⟨hrow, fun w => hnames.imp_of_mem fun hr hr' hne hsel => hne ?_⟩
  obtain ⟨i, hi, hname⟩ := (hrow w _ hr).mp hsel.1
  obtain ⟨j, hj, hname'⟩ := (hrow w _ hr').mp hsel.2
  cases hi.symm.trans hj
  exact hname.symm.trans hname'

end Sys2Proof
end

section
/-! O16: the illegal words (30_encoding.md R76). -/

namespace Sys2Proof.Machine

/-- An illegal word's cause in every phase: FAULTED is tested first (60_exceptions.md R201). -/
theorem legality_illegal_eq (p : Phase) (why : Illegal) :
    legality p (.illegal why) = some (if p = .faulted then .faulted else .illegalCommand) := by
  split
  · next h => rw [h, legality_faulted]
  · next h => exact legality_illegal p why h

/-- The conditions of R76, opcode by opcode. -/
theorem exists_decode_eq_illegal_iff (w : CmdWord) : (∃ why, decode w = .illegal why) ↔
    w.op.toNat = 0 ∨ 5 ≤ w.op.toNat ∨
    (w.op = 1 ∧ w.len ≠ 0) ∨
    (w.op = 2 ∧ (8 < w.len.toNat ∨ w.b ≠ 0)) ∨
    ((w.op = 3 ∨ w.op = 4) ∧ (w.len ≠ 0 ∨ w.a ≠ 0 ∨ w.b ≠ 0)) := by
  obtain hop | hop | hop | hop | hop := op_cases w
  · rw [decode_reserved w hop]
    exact ⟨fun _ => hop.imp_right .inl, fun _ => ⟨_, rfl⟩⟩
  · have hop' : w.op = 1 := (op_eq_iff w 1 (by decide)).mpr hop
    simp [decode_op_one w hop, ite_eq_illegal_iff, hop']
  · have hop' : w.op = 2 := (op_eq_iff w 2 (by decide)).mpr hop
    by_cases hlen : 8 < w.len.toNat <;> simp [decode_op_two w hop, ite_eq_illegal_iff, hop', hlen]
  · have hop' : w.op = 3 := (op_eq_iff w 3 (by decide)).mpr hop
    simp [decode_op_three w hop, decodeNoOperand, ite_eq_illegal_iff, hop', -not_and, not_and_or]
  · have hop' : w.op = 4 := (op_eq_iff w 4 (by decide)).mpr hop
    simp [decode_op_four w hop, decodeNoOperand, ite_eq_illegal_iff, hop', -not_and, not_and_or]

/-- Settles O16: R76's conditions, then the fault of the legality check, which no effect follows. -/
theorem illegalWordsRaiseTheFault : Obligations.IllegalWordsRaiseTheFault := by
  refine ⟨exists_decode_eq_illegal_iff, fun s w q why hin hd => ?_, .reservedOpcode, decode_reserved 0 (.inl rfl)⟩
  rw [step_command s w q hin, hd, legality_illegal_eq]
  rfl

end Sys2Proof.Machine
end

section
/-! O18: the bytes of an ABSORB word (30_encoding.md R74). -/

namespace Sys2Proof.Machine

/-- Byte `i` of the data word is `CMD[8*i+15 : 8*i+8]`. -/
theorem byteAt_a (w : CmdWord) (i : Nat) (hi : i < 8) : byteAt w.a i = w.extractLsb' (8 * i + 8) 8 := by
  apply BitVec.eq_of_getLsbD_eq
  intro k hk
  have h64 : 8 * i + k < 64 := by omega
  rw [byteAt_getLsbD, CmdWord.a, BitVec.getLsbD_extractLsb', BitVec.getLsbD_extractLsb', decide_eq_true h64,
    Nat.add_left_comm, Nat.add_assoc, Bool.true_and]

/-- The bytes of a beat depend on the bytes of the data word below `n` alone. -/
theorem beatBytes_congr {a a' : Word} {n : Nat} (hn : n ≤ 8) (h : ∀ i, i < n → byteAt a i = byteAt a' i) :
    beatBytes a n = beatBytes a' n := by
  apply List.ext_getElem?
  intro i
  by_cases hi : i < n
  · rw [getElem?_beatBytes a n i hn hi, getElem?_beatBytes a' n i hn hi, h i hi]
  · have hnone : ∀ x, (beatBytes x n)[i]? = none := fun x =>
      List.getElem?_eq_none (by rw [length_beatBytes x n hn]; omega)
    rw [hnone, hnone]

/-- A full beat is the data word. -/
theorem le64_beatBytes_eight (a : Word) : le64 (beatBytes a 8) = a := le64_bytesLe a

/-- A whole word on a word boundary is injected as it stands. -/
theorem update_lanes_of_word (bs : List Byte) (s : State) (hf : s.fill = 0) (hb : bs.length = 8) :
    (update bs s).lanes = inject s.lanes (le64 bs) := by
  have hw := absorbedLanes_append_word s.lanes bs [] hb
  rw [List.append_nil, absorbedLanes_of_lt _ [] (by decide)] at hw
  rw [update_of_fill_zero bs s hf, absorbWords_eq, hw]

/-- Words of ABSORB that agree in `len`, in `b` and in the bytes below `len` decode alike, legal or not. -/
theorem decode_congr_of_beat {w w' : CmdWord} (hop : w.op = 2) (hop' : w'.op = 2) (hlen : w.len = w'.len)
    (hb : w.b = w'.b) (h : ∀ i, i < w.len.toNat → byteAt w.a i = byteAt w'.a i) : decode w = decode w' := by
  rw [decode_op_two w ((op_eq_iff w 2 (by decide)).mp hop), decode_op_two w' ((op_eq_iff w' 2 (by decide)).mp hop'),
    ← hlen, ← hb]
  by_cases h8 : 8 < w.len.toNat
  · rw [if_pos h8, if_pos h8]
  · rw [beatBytes_congr (by omega) h]

/-- Settles O18: the row of ABSORB gives the bytes, `decode_congr_of_beat` that the others are ignored, and
`update_lanes_of_word` the injection of a full beat. -/
theorem absorbBytesAreTheFirstOfTheDataWord : Obligations.AbsorbBytesAreTheFirstOfTheDataWord := by
  refine ⟨fun w hop hlen hb => ?_, fun w w' => decode_congr_of_beat, fun s w q hin hp hcnt hop hlen hb => ?_⟩
  · refine ⟨beatBytes w.a w.len.toNat, (decode_eq_command_iff w _).mpr ⟨hop, hlen, hb, rfl⟩,
      length_beatBytes _ _ hlen, fun i hi => ?_, fun h8 => ?_⟩
    · rw [getElem?_beatBytes _ _ _ hlen hi, byteAt_a w i (by omega)]
    · rw [h8]
      exact le64_beatBytes_eight w.a
  · have hd : decode w = .command (.absorb (beatBytes w.a 8)) :=
      (decode_eq_command_iff w _).mpr ⟨hop, by rw [hlen]; decide, hb, by rw [hlen]; rfl⟩
    have hlegal : legality (s.withInbox q).phase (.command (.absorb (beatBytes w.a 8))) = none := by
      rw [State.withInbox_phase, hp, legality_absorbing]
    refine ⟨_, (step_eq_exec hin hd).trans (exec_of_legal _ _ hlegal), ?_⟩
    have hlanes := update_lanes_of_word (beatBytes w.a 8) (s.withInbox q) hcnt rfl
    rw [le64_beatBytes_eight] at hlanes
    exact hlanes

end Sys2Proof.Machine
end

section
/-! O20, O21: the response word (30_encoding.md R78). -/

namespace Sys2Proof.Machine

theorem Response.extractLsb_word_kind (r : Response) : r.word.extractLsb 3 0 = r.kind :=
  BitVec.extractLsb'_append_eq_right

/-- `RSP[131:4]` is `{hi, lo}`. -/
theorem Response.extractLsb_word_digest (r : Response) : r.word.extractLsb 131 4 = r.hi ++ r.lo :=
  BitVec.extractLsb'_append_eq_left

theorem Response.extractLsb_word_lo (r : Response) : r.word.extractLsb 67 4 = r.lo :=
  (BitVec.extractLsb'_append_eq_of_le (by decide)).trans BitVec.extractLsb'_append_eq_right

theorem Response.extractLsb_word_hi (r : Response) : r.word.extractLsb 131 68 = r.hi :=
  (BitVec.extractLsb'_append_eq_of_le (by decide)).trans BitVec.extractLsb'_append_eq_left

/-- A command answers a FAULT, or has its own effect (60_exceptions.md R203). -/
theorem exec_fault_or_effect {i : Instr} {s t : State} (h : exec i s = .next t) :
    (∃ c, t.responses = s.responses ++ [.fault c]) ∨ t = effect i s := by
  cases hl : legality s.phase (.command i) with
  | some c => rw [exec_of_fault i s c hl] at h; cases h; exact .inl ⟨c, rfl⟩
  | none => rw [exec_of_legal i s hl] at h; cases h; exact .inr rfl

theorem absorb_responses (bytes : List Byte) (s : State) : (absorb bytes s).responses = s.responses ++ [.done] := by
  obtain ⟨-, -, hr, -⟩ := update_frame bytes s
  rw [absorb, State.respond_responses, hr]

/-- Settles O20: the word is cut where it was put together; a command faults or has its own effect. -/
theorem responseWordHasItsFields : Obligations.ResponseWordHasItsFields := by
  refine ⟨fun r => ?_, fun i s t h => ?_⟩
  · have hk := r.extractLsb_word_kind
    have hl := r.extractLsb_word_lo
    have hh := r.extractLsb_word_hi
    cases r with
    | done => exact ⟨hk, hl, hh⟩
    | digest64 d => exact ⟨hk, hl, hh⟩
    | digest128 lo hi =>
      obtain ⟨hbytes, -⟩ := digestBytesAreLittleEndian
      obtain ⟨-, -, hbyte⟩ := hbytes lo hi
      refine ⟨hk, hl, hh, fun i hi16 => ?_⟩
      rw [hbyte i hi16, Response.extractLsb_word_digest]
      rfl
    | fault c => exact ⟨hk, hl, hh⟩
  · obtain ⟨c, hc⟩ | rfl := exec_fault_or_effect h
    · refine ⟨_, hc, ?_⟩
      cases i <;> exact .inr ⟨c, rfl⟩
    · cases i with
      | construct k0 k1 => exact ⟨_, rfl, .inl rfl⟩
      | absorb bytes => exact ⟨_, absorb_responses bytes s, .inl rfl⟩
      | digest64 => exact ⟨_, rfl, .inl ⟨_, rfl⟩⟩
      | digest128 => exact ⟨_, rfl, .inl ⟨_, _, rfl⟩⟩

/-- The cause a host reads from a code (60_exceptions.md R202). -/
def Cause.ofCode (w : Word) : Cause :=
  if w = 1 then .updateAfterFinalize else if w = 2 then .finalizeTwice else if w = 3 then .noInstance
  else if w = 4 then .illegalCommand else .faulted

theorem Cause.ofCode_code (c : Cause) : Cause.ofCode c.code = c := by
  cases c <;> rfl

/-- The response a host reads from the three fields (30_encoding.md R78). -/
def Response.ofFields (kind : BitVec 4) (lo hi : Word) : Response :=
  if kind = 0 then .done else if kind = 1 then .digest64 lo else if kind = 2 then .digest128 lo hi
  else .fault (.ofCode lo)

theorem Response.ofFields_fields (r : Response) : Response.ofFields r.kind r.lo r.hi = r := by
  cases r with
  | done => rfl
  | digest64 d => rfl
  | digest128 lo hi => rfl
  | fault c => exact congrArg Response.fault c.ofCode_code

/-- Settles O21: the response is read back from the word's fields. -/
theorem responseWordsAreDistinct : Obligations.ResponseWordsAreDistinct := by
  intro r r' h
  rw [← r.ofFields_fields, ← r'.ofFields_fields, ← r.extractLsb_word_kind, ← r.extractLsb_word_lo,
    ← r.extractLsb_word_hi, h, r'.extractLsb_word_kind, r'.extractLsb_word_lo, r'.extractLsb_word_hi]

end Sys2Proof.Machine
end

section
/-! O40: the canonical beats of UPDATE (30_encoding.md R80). -/

namespace Sys2Proof.Machine

/-- Fewer than eight bytes, but not none, are one beat. -/
theorem cutBeats_of_lt (m : List Byte) (h0 : m ≠ []) (h : m.length < 8) : cutBeats m = [m] := by
  match m, h0, h with
  | [_], _, _ => rfl
  | [_, _], _, _ => rfl
  | [_, _, _], _, _ => rfl
  | [_, _, _, _], _, _ => rfl
  | [_, _, _, _, _], _, _ => rfl
  | [_, _, _, _, _, _], _, _ => rfl
  | [_, _, _, _, _, _, _], _, _ => rfl

/-- Eight bytes in front are a beat of their own. -/
theorem cutBeats_append (w m : List Byte) (h : w.length = 8) : cutBeats (w ++ m) = w :: cutBeats m := by
  match w, h with
  | [_, _, _, _, _, _, _, _], _ => rfl

/-- Induction along the cut: no bytes, one shorter beat, or a full beat in front. -/
theorem beatInduction {P : List Byte → Prop} (nil : P []) (short : ∀ m, m ≠ [] → m.length < 8 → P m)
    (word : ∀ w m, w.length = 8 → P m → P (w ++ m)) (m : List Byte) : P m := by
  induction m using wordInduction with
  | short m h =>
    by_cases h0 : m = []
    · exact h0 ▸ nil
    · exact short m h0 h
  | word w m h ih => exact word w m h ih

theorem cutBeats_eq_nil_iff (m : List Byte) : cutBeats m = [] ↔ m = [] := by
  induction m using beatInduction with
  | nil => simp [cutBeats]
  | short m h0 h => simp [cutBeats_of_lt m h0 h, h0]
  | word w m h _ =>
    have hw : w ≠ [] := List.ne_nil_of_length_eq_add_one h
    simp [cutBeats_append w m h, hw]

/-- UPDATE's commands are the beats of the cut, or one empty beat. -/
theorem expandUpdate_eq (m : List Byte) :
    expandUpdate m = (if m = [] then [[]] else cutBeats m).map .absorb := by
  split
  · next h => rw [h]; rfl
  · next h =>
    have hc : cutBeats m ≠ [] := mt (cutBeats_eq_nil_iff m).mp h
    unfold expandUpdate
    split
    · contradiction
    · rfl

theorem flatten_cutBeats (m : List Byte) : (cutBeats m).flatten = m := by
  induction m using beatInduction with
  | nil => rfl
  | short m h0 h => simp [cutBeats_of_lt m h0 h]
  | word w m h ih => rw [cutBeats_append w m h, List.flatten_cons, ih]

theorem length_cutBeats (m : List Byte) : (cutBeats m).length = (m.length + 7) / 8 := by
  induction m using beatInduction with
  | nil => rfl
  | short m h0 h =>
    have hpos := List.length_pos_of_ne_nil h0
    rw [cutBeats_of_lt m h0 h, List.length_singleton]
    omega
  | word w m h ih =>
    rw [cutBeats_append w m h, List.length_cons, List.length_append, ih]
    omega

/-- Every beat but the last is full. -/
theorem length_of_mem_dropLast_cutBeats (m : List Byte) : ∀ b ∈ (cutBeats m).dropLast, b.length = 8 := by
  induction m using beatInduction with
  | nil => simp [cutBeats]
  | short m h0 h => simp [cutBeats_of_lt m h0 h]
  | word w m h ih =>
    rw [cutBeats_append w m h]
    by_cases h0 : m = []
    · simp [h0, cutBeats]
    · rw [List.dropLast_cons_of_ne_nil (mt (cutBeats_eq_nil_iff m).mp h0)]
      exact List.forall_mem_cons.mpr ⟨h, ih⟩

/-- The last beat has the bytes left, or eight when none are left over. -/
theorem length_getLast?_cutBeats (m : List Byte) :
    ∀ b, (cutBeats m).getLast? = some b → b.length = if m.length % 8 = 0 then 8 else m.length % 8 := by
  induction m using beatInduction with
  | nil => simp [cutBeats]
  | short m h0 h =>
    have hpos := List.length_pos_of_ne_nil h0
    rw [cutBeats_of_lt m h0 h, List.getLast?_singleton, if_neg (by omega), Nat.mod_eq_of_lt h]
    rintro _ ⟨⟩
    rfl
  | word w m h ih =>
    have hmod : (w ++ m).length % 8 = m.length % 8 := by rw [List.length_append]; omega
    rw [cutBeats_append w m h, hmod]
    by_cases h0 : m = []
    · simp [h0, cutBeats, h]
    · rw [List.getLast?_cons_of_ne_nil (mt (cutBeats_eq_nil_iff m).mp h0)]
      exact ih

/-- Settles O40: the empty sequence by its one empty beat, every other by the facts of its cut. -/
theorem updateExpandsToFullBeats : Obligations.UpdateExpandsToFullBeats := by
  intro bytes
  refine ⟨_, expandUpdate_eq bytes, ?_⟩
  by_cases h0 : bytes = []
  · simp [h0]
  · have hpos := List.length_pos_of_ne_nil h0
    rw [if_neg h0]
    refine ⟨flatten_cutBeats bytes, ?_, length_of_mem_dropLast_cutBeats bytes, ?_⟩
    · rw [length_cutBeats]
      omega
    · simpa [h0] using length_getLast?_cutBeats bytes

end Sys2Proof.Machine
end

section
/-! O22: the assembler's reader (30_encoding.md R79). -/

namespace Sys2Proof.Machine

theorem wf_of_checkedLine {l l' : AsmLine} (h : checkedLine l = some l') : l'.wf = true := by
  unfold checkedLine at h
  split at h
  · next hwf => cases h; exact hwf
  · cases h

theorem wf_of_countedBeat {count : List Char} {ts : List Token} {l : AsmLine} (h : countedBeat count ts = some l) :
    l.wf = true := by
  obtain ⟨n, -, h⟩ := Option.bind_eq_some_iff.mp h
  obtain ⟨bytes, -, h⟩ := Option.bind_eq_some_iff.mp h
  split at h
  · exact wf_of_checkedLine h
  · cases h

theorem wf_of_eq_some {l l' : AsmLine} (hwf : l.wf = true) (h : some l = some l') : l'.wf = true :=
  Option.some.inj h ▸ hwf

theorem wf_of_ite {p : Prop} [Decidable p] {o o' : Option AsmLine} {l : AsmLine} (ho : o = some l → l.wf = true)
    (ho' : o' = some l → l.wf = true) : (if p then o else o') = some l → l.wf = true := by
  split
  · exact ho
  · exact ho'

/-- Tokens that stand for a line stand for a well-formed one: ABSORB is checked, and every other line is well-formed
whatever its operands. -/
theorem wf_of_lineOf {ts : List Token} {l : AsmLine} : lineOf ts = some l → l.wf = true := by
  unfold lineOf
  split
  · refine wf_of_ite (fun h => ?_) (wf_of_ite wf_of_countedBeat nofun)
    obtain ⟨k0, -, h⟩ := Option.bind_eq_some_iff.mp h
    obtain ⟨k1, -, h⟩ := Option.map_eq_some_iff.mp h
    exact h ▸ rfl
  · intro h
    obtain ⟨bytes, -, h⟩ := Option.bind_eq_some_iff.mp h
    revert h
    exact wf_of_ite wf_of_checkedLine (wf_of_ite (wf_of_eq_some rfl) (wf_of_ite (wf_of_eq_some rfl)
      (wf_of_ite (wf_of_eq_some rfl) nofun)))
  · exact wf_of_ite (wf_of_eq_some rfl) (wf_of_ite (wf_of_eq_some rfl) (wf_of_ite (wf_of_eq_some rfl) nofun))
  · exact wf_of_ite wf_of_countedBeat nofun
  · exact wf_of_ite wf_of_countedBeat nofun
  · exact nofun

/-- Settles O22: a text that is read is a list of tokens that stands for a line; the examples are evaluated. -/
theorem assemblerReadsOnlyWellFormedLines : Obligations.AssemblerReadsOnlyWellFormedLines := by
  refine ⟨fun text l h => ?_, by decide, by decide, by decide, by decide, by decide, by decide, by decide⟩
  obtain ⟨ts, -, hline⟩ := Option.bind_eq_some_iff.mp h
  exact wf_of_lineOf hline

end Sys2Proof.Machine
end

section
/-! O1, O2, O3: the lane arithmetic (40_round_function.md R100 to R102). -/

namespace Sys2Proof.Machine

/-- Settles O1: the addition of 64-bit words, at all words and at the rule's. -/
theorem additionWrapsSilently : Obligations.AdditionWrapsSilently :=
  ⟨fun a b => BitVec.toNat_add a b, by decide, by decide, fun _ => BitVec.add_zero _⟩

/-- The two terms of the rotation do not overlap: the first is a multiple of `2^n`, the second is below it. -/
theorem rotl64_toNat (x : Word) (n : Nat) (hn : n < 64) :
    (rotl64 x n).toNat = (x.toNat * 2 ^ n) % 2 ^ 64 + x.toNat / 2 ^ (64 - n) := by
  have hpow : 2 ^ 64 = 2 ^ (64 - n) * 2 ^ n := by rw [← Nat.pow_add, Nat.sub_add_cancel hn.le]
  have hhigh : x.toNat * 2 ^ n % 2 ^ 64 = x.toNat % 2 ^ (64 - n) * 2 ^ n := by
    rw [hpow, Nat.mul_mod_mul_right]
  have hlow : x.toNat / 2 ^ (64 - n) < 2 ^ n := Nat.div_lt_of_lt_mul (hpow ▸ x.isLt)
  have hsum : x.toNat * 2 ^ n % 2 ^ 64 + x.toNat / 2 ^ (64 - n) < 2 ^ 64 := by
    have hmod : x.toNat % 2 ^ (64 - n) < 2 ^ (64 - n) := Nat.mod_lt _ (Nat.two_pow_pos _)
    calc x.toNat * 2 ^ n % 2 ^ 64 + x.toNat / 2 ^ (64 - n)
      _ < x.toNat % 2 ^ (64 - n) * 2 ^ n + 2 ^ n := by rw [hhigh]; exact Nat.add_lt_add_left hlow _
      _ = (x.toNat % 2 ^ (64 - n) + 1) * 2 ^ n := (Nat.succ_mul _ _).symm
      _ ≤ 2 ^ 64 := by rw [hpow]; exact Nat.mul_le_mul_right _ hmod
  rw [rotl64, BitVec.toNat_add, BitVec.toNat_shiftLeft, BitVec.toNat_ushiftRight, Nat.shiftLeft_eq,
    Nat.shiftRight_eq_div_pow, Nat.mod_eq_of_lt hsum]

/-- Bit `i` of the rotation is bit `(i - n) mod 64` of the word. -/
theorem rotl64_getLsbD_mod (x : Word) (n i : Nat) (h0 : 0 < n) (hn : n < 64) (hi : i < 64) :
    (rotl64 x n).getLsbD i = x.getLsbD ((i + (64 - n)) % 64) := by
  rw [rotl64_getLsbD x n i h0 hn hi]
  split
  · congr 1; omega
  · congr 1; omega

theorem rotl64_allOnes (n : Nat) (h0 : 0 < n) (hn : n < 64) : rotl64 (BitVec.allOnes 64) n = BitVec.allOnes 64 := by
  apply BitVec.eq_of_getLsbD_eq
  intro i hi
  rw [rotl64_getLsbD_mod _ n i h0 hn hi, BitVec.getLsbD_allOnes, BitVec.getLsbD_allOnes]
  simp [hi, Nat.mod_lt]

/-- The rotation by 32 swaps the halves. -/
theorem rotl64_32 (x : Word) : rotl64 x 32 = x.extractLsb' 0 32 ++ x.extractLsb' 32 32 := by
  apply BitVec.eq_of_getLsbD_eq
  intro i hi
  rw [rotl64_getLsbD x 32 i (by decide) (by decide) hi, BitVec.getLsbD_append]
  split
  · next h => simp [h]
  · next h => simp [show i - 32 < 32 by omega]

/-- Settles O2: as a number, bit by bit, at all ones and at 32; the examples are evaluated. -/
theorem rotationIsCircularLeft : Obligations.RotationIsCircularLeft :=
  ⟨fun x n h0 hn => ⟨rotl64_toNat x n hn, fun i hi => rotl64_getLsbD_mod x n i h0 hn hi, rotl64_allOnes n h0 hn⟩,
    rotl64_32, by decide, by decide, by decide, by decide, by decide, by decide⟩

/-- Settles O3: bit by bit, exclusive-or is the exclusive-or of Booleans, whose truth table is the sum modulo 2. -/
theorem xorIsBitwiseSumModuloTwo : Obligations.XorIsBitwiseSumModuloTwo := by
  refine ⟨fun a b i _ => ?_, fun _ => BitVec.xor_self, fun _ => BitVec.xor_zero⟩
  rw [xor64_eq, BitVec.getLsbD_xor]
  cases a.getLsbD i <;> cases b.getLsbD i <;> rfl

end Sys2Proof.Machine
end

section
/-! O4 to O7: SIPROUND, its closed form, its inverse and its fixed point (40_round_function.md R103, R104, R106,
R107). -/

namespace Sys2Proof.Machine

/-- Settles O4: the model's three operations are the library's (`rotl64_eq_rotateLeft` for each rotation). -/
theorem sipRoundRunsTheFourteenAssignments : Obligations.SipRoundRunsTheFourteenAssignments := by
  refine ⟨fun v0 v1 v2 v3 => ?_, by decide, by decide⟩
  simp (disch := decide) only [sipRound, add64_eq, xor64_eq, rotl64_eq_rotateLeft]

/-- Settles O5: the closed form only names the value of each assignment, so the two compute alike. -/
theorem sipRoundHasItsClosedForm : Obligations.SipRoundHasItsClosedForm := fun _ => rfl

/-- Each assignment of the backwards run undoes one of SIPROUND's, from the last to the first. -/
theorem sipRoundInverse_sipRound (v : Lanes) : sipRoundInverse (sipRound v) = v := by
  simp (disch := decide) only [sipRoundInverse, sipRound, rotl64_rotl64_cancel, xor64_xor64_cancel, add64_sub_cancel]

/-- SIPROUND's assignments undo the backwards run's in the same way. -/
theorem sipRound_sipRoundInverse (v : Lanes) : sipRound (sipRoundInverse v) = v := by
  simp (disch := decide) only [sipRoundInverse, sipRound, rotl64_rotl64_cancel, xor64_xor64_cancel, sub_add64_cancel]

/-- Settles O6: the two sides of the inverse. -/
theorem sipRoundIsABijection : Obligations.SipRoundIsABijection :=
  fun v => ⟨sipRoundInverse_sipRound v, sipRound_sipRoundInverse v⟩

theorem sipRound_injective : Function.Injective sipRound :=
  Function.LeftInverse.injective sipRoundInverse_sipRound

theorem sipRound_zero : sipRound ⟨0, 0, 0, 0⟩ = ⟨0, 0, 0, 0⟩ := by decide

theorem sipRound_eq_zero_iff (v : Lanes) : sipRound v = ⟨0, 0, 0, 0⟩ ↔ v = ⟨0, 0, 0, 0⟩ :=
  sipRound_injective.eq_iff' sipRound_zero

/-- Lanes 0 and 2 get the same key word, so they are both zero only when `C0` and `C2` are both that word. -/
theorem keyedLanes_ne_zero {c : Config.InitConstants} (k0 k1 : Word) (hc : c.c0 ≠ c.c2) :
    keyedLanes c k0 k1 ≠ ⟨0, 0, 0, 0⟩ := by
  intro h
  have h0 : c.c0 = k0 := BitVec.xor_eq_zero_iff.mp (congrArg Lanes.v0 h)
  have h2 : c.c2 = k0 := BitVec.xor_eq_zero_iff.mp (congrArg Lanes.v2 h)
  exact hc (h0.trans h2.symm)

/-- Settles O7: SIPROUND is injective and fixes the all-zero lanes, and lanes 0 and 2 of a fresh instance differ. -/
theorem zeroLanesAreAFixedPoint : Obligations.ZeroLanesAreAFixedPoint :=
  ⟨sipRound_eq_zero_iff, fun _ k0 k1 hc => keyedLanes_ne_zero k0 k1 hc, by decide⟩

end Sys2Proof.Machine
end

section
/-! O8, O9: INJECT and its factorization into bijections (41_block_mixer.md R120, R122). -/

namespace Sys2Proof.Machine

/-- `xor3(V, m)` of 41_block_mixer.md R122: the word into lane 3. -/
def xorLane3 (m : Word) (v : Lanes) : Lanes := { v with v3 := xor64 v.v3 m }

/-- `xor0(V, m)` of 41_block_mixer.md R122: the word into lane 0. -/
def xorLane0 (m : Word) (v : Lanes) : Lanes := { v with v0 := xor64 v.v0 m }

theorem xorLane3_involutive (m : Word) : Function.Involutive (xorLane3 m) := by
  intro v
  simp only [xorLane3, xor64_xor64_cancel]

theorem xorLane0_involutive (m : Word) : Function.Involutive (xorLane0 m) := by
  intro v
  simp only [xorLane0, xor64_xor64_cancel]

theorem sipRound_bijective : Function.Bijective sipRound :=
  ⟨sipRound_injective, Function.RightInverse.surjective sipRound_sipRoundInverse⟩

/-- 41_block_mixer.md R122: INJECT as a composition of four maps on the lanes. -/
theorem inject_eq_xorLane0_sipRound_sipRound_xorLane3 (v : Lanes) (m : Word) :
    inject v m = xorLane0 m (sipRound (sipRound (xorLane3 m v))) := by
  rw [inject, sipRounds_two, xorLane0, xorLane3]

/-- Settles O9: INJECT of a fixed word is a composition of bijections, two of them SIPROUND. -/
theorem injectIsABijectionOnLanes : Obligations.InjectIsABijectionOnLanes := by
  intro m
  simp only [inject_eq_xorLane0_sipRound_sipRound_xorLane3]
  exact (xorLane0_involutive m).bijective.comp
    (sipRound_bijective.comp (sipRound_bijective.comp (xorLane3_involutive m).bijective))

theorem inject_zero_zero : inject ⟨0, 0, 0, 0⟩ 0 = ⟨0, 0, 0, 0⟩ := by
  have hlane3 : xorLane3 0 ⟨0, 0, 0, 0⟩ = ⟨0, 0, 0, 0⟩ := by decide
  have hlane0 : xorLane0 0 ⟨0, 0, 0, 0⟩ = ⟨0, 0, 0, 0⟩ := by decide
  rw [inject_eq_xorLane0_sipRound_sipRound_xorLane3, hlane3, sipRound_zero, sipRound_zero, hlane0]

/-- Settles O8: the factorization read lane by lane, the fixed point of SIPROUND, lanes that a zero word moves, and the
rule's example evaluated. -/
theorem injectMixesTheWordInTwoRounds : Obligations.InjectMixesTheWordInTwoRounds :=
  ⟨fun v0 v1 v2 v3 m => inject_eq_xorLane0_sipRound_sipRound_xorLane3 ⟨v0, v1, v2, v3⟩ m, inject_zero_zero,
    ⟨⟨1, 0, 0, 0⟩, by decide⟩, by decide⟩

end Sys2Proof.Machine
end

section
/-! O23: CONSTRUCT starts afresh (42_streaming_hasher.md R130, R131). -/

namespace Sys2Proof.Machine

/-- CONSTRUCT outside FAULTED is its effect. -/
theorem exec_construct_of_ne_faulted (k0 k1 : Word) {s : State} (h : s.phase ≠ .faulted) :
    exec (.construct k0 k1) s = .next (construct k0 k1 s) :=
  exec_of_legal _ s (legality_construct s.phase k0 k1 h)

/-- In FAULTED a fault only responds. -/
theorem raise_of_faulted {s : State} (c : Cause) (h : s.phase = .faulted) : s.raise c = s.respond (.fault c) := by
  rw [State.raise, State.setPhase, ← h]

/-- The key 0 leaves the constants. -/
theorem keyedLanes_zero (c : Config.InitConstants) : keyedLanes c 0 0 = ⟨c.c0, c.c1, c.c2, c.c3⟩ := by
  simp [keyedLanes, xor64_eq]

/-- Settles O23: the effect outside FAULTED and the fault in it, at the key 0, and the word that is illegal. -/
theorem constructStartsAFreshInstance : Obligations.ConstructStartsAFreshInstance := by
  refine ⟨fun k0 k1 s h => exec_construct_of_ne_faulted k0 k1 h, fun k0 k1 s h => ?_, fun s h => ?_,
    fun s w q hin h hop hlen => ?_⟩
  · have hfault : legality s.phase (.command (.construct k0 k1)) = some .faulted := by rw [h, legality_faulted]
    rw [exec_of_fault _ s _ hfault, raise_of_faulted _ h]
    rfl
  · exact ⟨_, exec_construct_of_ne_faulted 0 0 h, keyedLanes_zero s.consts⟩
  · have hd : decode w = .illegal .constructLenNotZero := by
      rw [decode_op_one w ((op_eq_iff w 1 (by decide)).mp hop), if_neg hlen]
    rw [step_command s w q hin, hd, legality_illegal _ _ h]
    rfl

end Sys2Proof.Machine
end

section
/-! O25, O26: one ABSORB beat (42_streaming_hasher.md R133, R135). -/

namespace Sys2Proof.Machine

/-- The word of two byte lists together: the second lies above the first. -/
theorem le64_append (as bs : List Byte) : le64 (as ++ bs) = le64 as + (le64 bs <<< (8 * as.length)) := by
  induction as with
  | nil => simp [le64]
  | cons a as ih =>
    rw [List.cons_append, le64, ih, le64, BitVec.shiftLeft_add_distrib, BitVec.add_assoc, ← BitVec.shiftLeft_add,
      List.length_cons, Nat.mul_succ]

/-- New bytes after the live ones, as a word: they are added above the buffer. -/
theorem le64_liveBytes_append (bs : List Byte) (s : State) (h : s.zeroAboveLive) :
    le64 (s.liveBytes ++ bs) = s.pending + (le64 bs <<< (8 * s.fill)) := by
  rw [le64_append, ← s.pending_eq_le64_liveBytes h, s.length_liveBytes]

/-- UPDATE short of a word only appends to the buffer (42_streaming_hasher.md R135). -/
theorem update_eq_of_short (bs : List Byte) (s : State) (h : s.zeroAboveLive) (hlt : s.fill + bs.length < 8) :
    update bs s = { s with
      cnt := s.cnt + BitVec.ofNat 64 bs.length
      pending := le64 (s.liveBytes ++ bs) } := by
  have hlen : (s.liveBytes ++ bs).length < 8 := by rwa [List.length_append, s.length_liveBytes]
  rw [update_eq bs s h, absorbedLanes_of_lt _ _ hlen, tailWord, messageTail_of_lt _ hlen]

/-- UPDATE of at most eight bytes that completes a word injects it and keeps the bytes after it
(42_streaming_hasher.md R135). -/
theorem update_eq_of_full (bs : List Byte) (s : State) (h : s.zeroAboveLive) (hbeat : bs.length ≤ 8)
    (hge : 8 ≤ s.fill + bs.length) :
    update bs s = { s with
      lanes := inject s.lanes (le64 (s.liveBytes ++ bs.take (8 - s.fill)))
      cnt := s.cnt + BitVec.ofNat 64 bs.length
      pending := le64 (bs.drop (8 - s.fill)) } := by
  have hfill := s.fill_lt
  have hword : (s.liveBytes ++ bs.take (8 - s.fill)).length = 8 := by
    rw [List.length_append, s.length_liveBytes, List.length_take]
    omega
  have hrest : (bs.drop (8 - s.fill)).length < 8 := by
    rw [List.length_drop]
    omega
  have hsplit : s.liveBytes ++ bs = (s.liveBytes ++ bs.take (8 - s.fill)) ++ bs.drop (8 - s.fill) := by
    rw [List.append_assoc, List.take_append_drop]
  rw [update_eq bs s h, hsplit, absorbedLanes_append_word _ _ _ hword, absorbedLanes_of_lt _ _ hrest, tailWord,
    messageTail_append_word _ _ hword, messageTail_of_lt _ hrest]

/-- ABSORB in ABSORBING is UPDATE and DONE. -/
theorem exec_absorb_of_absorbing (bytes : List Byte) {s : State} (h : s.phase = .absorbing) :
    exec (.absorb bytes) s = .next ((update bytes s).respond .done) := by
  have hlegal : legality s.phase (.command (.absorb bytes)) = none := by rw [h, legality_absorbing]
  exact exec_of_legal _ s hlegal

/-- Settles O25: a beat stays short of a word or completes one, and of the completing ones the exact fit keeps no
bytes. -/
theorem absorbHasItsThreeCases : Obligations.AbsorbHasItsThreeCases := by
  intro bytes s hp hz hbeat r n
  rw [exec_absorb_of_absorbing bytes hp]
  refine ⟨fun hlt => ?_, fun heq => ?_, fun hgt => ?_⟩
  · rw [update_eq_of_short bytes s hz hlt, le64_liveBytes_append bytes s hz]
    rfl
  · have hexact : bytes.length ≤ 8 - s.fill := Nat.le_sub_of_add_le' heq.le
    rw [update_eq_of_full bytes s hz hbeat heq.ge, List.take_of_length_le hexact, List.drop_eq_nil_of_le hexact,
      le64_liveBytes_append bytes s hz]
    rfl
  · rw [update_eq_of_full bytes s hz hbeat hgt.le, le64_liveBytes_append _ s hz]
    rfl

/-- Settles O26: ABSORB is legal, and `update_frame` says the counter and the frame whatever the buffer holds. -/
theorem absorbCompletesAndCounts : Obligations.AbsorbCompletesAndCounts := by
  intro bytes s hp
  obtain ⟨hphase, hinbox, -, hdraws, hconsts, hcnt⟩ := update_frame bytes s
  exact ⟨_, exec_absorb_of_absorbing bytes hp, hphase.trans hp, hcnt, absorb_responses bytes s, hinbox, hdraws,
    hconsts⟩

end Sys2Proof.Machine
end

section
/-! O27, O28, O29: UPDATE byte by byte, in pieces, and in closed form (42_streaming_hasher.md R134, R136, R137). -/

namespace Sys2Proof.Machine

/-- Writing the next byte of the buffer makes the word of the live bytes and that byte. -/
theorem setByte_pending_fill (b : Byte) (s : State) (h : s.zeroAboveLive) :
    setByte s.pending s.fill b = le64 (s.liveBytes ++ [b]) := by
  rw [← copyTail_le64, s.length_liveBytes, ← s.pending_eq_le64_liveBytes h]
  rfl

/-- UPDATE of one byte is the byte-serial step (42_streaming_hasher.md R134). -/
theorem update_singleton (b : Byte) (s : State) (h : s.zeroAboveLive) : update [b] s = absorbByte s b := by
  have hfill := s.fill_lt
  have happend : s.appendByte b = { s with cnt := s.cnt + 1, pending := le64 (s.liveBytes ++ [b]) } := by
    rw [← setByte_pending_fill b s h]
    rfl
  rw [absorbByte, happend]
  by_cases h7 : s.fill = 7
  · rw [if_pos h7, update_eq_of_full [b] s h (by simp) (by simp [h7]), h7]
    rfl
  · have hlt : s.fill + [b].length < 8 := by
      rw [List.length_singleton]
      omega
    rw [if_neg h7, update_eq_of_short [b] s h hlt]
    rfl

/-- Settles O27, by induction on the bytes: the first is a step of its own, the rest follow it. -/
theorem updateIsTheByteSerialRun : Obligations.UpdateIsTheByteSerialRun := by
  intro bytes s h
  induction bytes generalizing s with
  | nil => exact update_nil s h
  | cons b bs ih =>
    rw [← List.singleton_append, update_append [b] bs s h, ih _ (zeroAboveLive_update [b] s h),
      update_singleton b s h]
    rfl

/-- Settles O28, by induction on the pieces: `update_append` joins the first to the rest. -/
theorem chunkingDoesNotMatter : Obligations.ChunkingDoesNotMatter := by
  intro pieces s h
  induction pieces generalizing s with
  | nil => exact (update_nil s h).symm
  | cons p ps ih =>
    rw [List.foldl_cons, ih _ (zeroAboveLive_update p s h), List.flatten_cons, update_append p _ s h]

/-- Settles O29: on a word boundary UPDATE is its whole-word loop, which does not read the buffer, and
CONSTRUCT leaves a word boundary. -/
theorem updateReachesItsClosedForm : Obligations.UpdateReachesItsClosedForm :=
  ⟨fun m s hfill _ => (update_of_fill_zero m s hfill).trans (absorbWords_eq m s),
    fun k0 k1 m s h => ⟨_, exec_construct_of_ne_faulted k0 k1 h, update_construct k0 k1 m s⟩⟩

end Sys2Proof.Machine
end

section
/-! O39: beats at the port (42_streaming_hasher.md R136, 30_encoding.md R80). -/

namespace Sys2Proof.Machine

/-- Settles O39: `runSteps_absorbBeats` from the state's own events and responses. -/
theorem anyBeatsCarryAnUpdate : Obligations.AnyBeatsCarryAnUpdate := by
  intro beats s q hwf hp hz hin
  have hrun := runSteps_absorbBeats beats s q s.responses hwf hp hz
  rw [← hin, State.withPort_self] at hrun
  exact hrun

end Sys2Proof.Machine
end

section
/-! O37: any number of sessions (43_finalization_digest.md R166, 70_reset_and_hazards.md R233). -/

namespace Sys2Proof.Machine

/-- What a session leaves: the phase FINALIZED, and the block's constants as they were. -/
theorem finalize_update_construct_frame (k0 k1 : Word) (m : List Byte) (s : State) :
    (finalize (update m (construct k0 k1 s))).phase = .finalized ∧
      (finalize (update m (construct k0 k1 s))).consts = s.consts := by
  obtain ⟨-, -, -, -, hconsts, -⟩ := update_frame m (construct k0 k1 s)
  exact ⟨rfl, hconsts⟩

/-- Sessions presented one after another, from any state that is not FAULTED: each answers as it does alone
(`runSteps_session`). -/
theorem runSteps_sessions (us : List Session) (s : State) (q : List Event) (rs : List Response)
    (hwf : ∀ u ∈ us, u.wf = true) (hf : s.phase ≠ .faulted) :
    ∃ t : State, (s.withPort (presentAll (us.flatMap Session.commands) ++ q) rs).runSteps
        (us.flatMap Session.commands).length =
          .next (t.withPort q (rs ++ us.flatMap (Session.responses s.consts))) ∧
      t.phase = if us = [] then s.phase else .finalized := by
  induction us generalizing s rs with
  | nil => exact ⟨s, by simp [runSteps_zero, presentAll], rfl⟩
  | cons u us ih =>
    obtain ⟨hu, hus⟩ := List.forall_mem_cons.mp hwf
    obtain ⟨hphase, hconsts⟩ := finalize_update_construct_frame u.k0 u.k1 u.message s
    have hfirst := runSteps_session u s (presentAll (us.flatMap Session.commands) ++ q) rs hu hf
    obtain ⟨t, hrest, ht⟩ := ih (finalize (update u.message (construct u.k0 u.k1 s))) (rs ++ u.responses s.consts) hus
      (hphase ▸ nofun)
    rw [hconsts] at hrest
    refine ⟨t, ?_, ?_⟩
    · rw [List.flatMap_cons, List.flatMap_cons, presentAll_append, List.append_assoc, List.length_append,
        runSteps_add _ _ hfirst, hrest, List.append_assoc]
    · rw [ht, hphase, ite_self, if_neg (List.cons_ne_nil u us)]

/-- The response to a session's last command is a digest. -/
theorem Session.isFault_digest (c : Config.InitConstants) (u : Session) : (u.digest c).isFault = false := by
  unfold Session.digest
  split <;> rfl

/-- No response of a session is a FAULT (60_exceptions.md R208). -/
theorem failedRun_responses (c : Config.InitConstants) (u : Session) : failedRun (u.responses c) = false := by
  have hdone : Response.isFault .done = false := rfl
  simp [failedRun, Session.responses, u.isFault_digest c, hdone]

/-- Any number of sessions is no failed run (70_reset_and_hazards.md R238). -/
theorem failedRun_flatMap_responses (c : Config.InitConstants) (us : List Session) :
    failedRun (us.flatMap (Session.responses c)) = false := by
  rw [failedRun, List.any_flatMap, List.any_eq_false]
  exact fun u _ => Bool.eq_false_iff.mp (failedRun_responses c u)

/-- Settles O37: `runSteps_sessions` from the state's own events and responses. -/
theorem legalUseAnswersTheHashOfEveryMessage : Obligations.LegalUseAnswersTheHashOfEveryMessage := by
  intro us s q hwf hf hin
  obtain ⟨t, hrun, hphase⟩ := runSteps_sessions us s q s.responses hwf hf
  rw [← hin, State.withPort_self] at hrun
  exact ⟨_, hrun, rfl, rfl, failedRun_flatMap_responses s.consts us, fun hne => hphase.trans (if_neg hne)⟩

end Sys2Proof.Machine
end

section
/-! O35: the final word (43_finalization_digest.md R161). -/

namespace Sys2Proof.Machine

/-- FINALIZE leaves in the buffer the word it injected. -/
theorem finalize_pending_eq_add (s : State) (h : s.zeroAboveLive) :
    (finalize s).pending = s.pending + (BitVec.ofNat 64 (s.cnt.toNat % 256) <<< 56) :=
  setByte_pending_length s h

/-- Settles O35: for a message from an empty buffer, the closed form of UPDATE on a word boundary gives the tail and the
length. -/
theorem finalWordIsTailPlusLength : Obligations.FinalWordIsTailPlusLength := by
  refine ⟨finalize_pending_eq_add, fun m s hcnt hpending => ?_⟩
  have hz : s.zeroAboveLive := by simp [State.zeroAboveLive, hpending]
  have hfill : s.fill = 0 := by simp [State.fill, hcnt]
  have hmod : (BitVec.ofNat 64 m.length).toNat % 256 = m.length % 256 := by
    rw [BitVec.toNat_ofNat]
    exact Nat.mod_mod_of_dvd _ (by decide)
  rw [finalize_pending_eq_add _ (zeroAboveLive_update m s hz), update_of_fill_zero m s hfill, absorbWords_eq, hcnt,
    BitVec.ofNat_eq_ofNat, BitVec.zero_add, hmod]
  rfl

end Sys2Proof.Machine
end

section
/-! O34, O32, O33, O36: the two digest commands (43_finalization_digest.md R160, R162 to R165). -/

namespace Sys2Proof.Machine

/-- Every command in ABSORBING has its effect (60_exceptions.md R201). -/
theorem exec_of_absorbing (i : Instr) {s : State} (h : s.phase = .absorbing) : exec i s = .next (effect i s) :=
  exec_of_legal i s (h ▸ legality_absorbing i)

/-- The whole of FINALIZE (43_finalization_digest.md R160), with the length byte as a slice of the counter. -/
theorem finalize_eq (s : State) : finalize s = { s with
    phase := .finalized
    lanes := finishLanes (inject s.lanes (setByte s.pending 7 (s.cnt.extractLsb 7 0)))
    pending := setByte s.pending 7 (s.cnt.extractLsb 7 0) } := by
  have hlow : s.cnt.extractLsb 7 0 = s.cnt.setWidth 8 := (BitVec.setWidth_eq_extractLsb' (by decide)).symm
  rw [hlow]
  rfl

/-- FINALIZE directly after CONSTRUCT leaves the lanes of the empty message (43_finalization_digest.md R166). -/
theorem finalize_construct_lanes (k0 k1 : Word) (s : State) :
    (finalize (construct k0 k1 s)).lanes = hashLanes s.consts k0 k1 [] := by
  rw [← finalize_update_construct_lanes, update_nil _ (zeroAboveLive_construct k0 k1 s)]

/-- The 64-bit digest of lanes is the XOR of the halves of their 128-bit one (43_finalization_digest.md R164). -/
theorem digest64Of_eq_xor (v : Lanes) : digest64Of v = digestLoOf v ^^^ digestHiOf v :=
  BitVec.xor_assoc _ _ _

/-- Settles O34: both commands run the same FINALIZE and read the same lanes. -/
theorem theTwoDigestsAgree : Obligations.TheTwoDigestsAgree := fun s h =>
  ⟨_, _, _, _, _, exec_of_absorbing .digest64 h, exec_of_absorbing .digest128 h, rfl, rfl,
    digest64Of_eq_xor (finalize s).lanes, rfl⟩

/-- The phases in which a digest command is illegal, with their causes (60_exceptions.md R201). -/
theorem legality_digest {i : Instr} {p : Phase} {c : Cause} (hi : i = .digest64 ∨ i = .digest128)
    (h : (p = .empty ∧ c = .noInstance) ∨ (p = .finalized ∧ c = .finalizeTwice) ∨ (p = .faulted ∧ c = .faulted)) :
    legality p (.command i) = some c := by
  obtain ⟨rfl, rfl⟩ | ⟨rfl, rfl⟩ | ⟨rfl, rfl⟩ := h
  · obtain rfl | rfl := hi
    · rfl
    · rfl
  · obtain rfl | rfl := hi
    · rfl
    · rfl
  · exact legality_faulted _

/-- A digest word with another field than the opcode set is illegal (30_encoding.md R76). -/
theorem step_of_digest_operand {s : State} {w : CmdWord} {q : List Event} (hin : s.inbox = .command w :: q)
    (hp : s.phase ≠ .faulted) (hop : w.op = 3 ∨ w.op = 4) (hne : w.len ≠ 0 ∨ w.a ≠ 0 ∨ w.b ≠ 0) :
    step s = .next ((s.withInbox q).raise .illegalCommand) := by
  obtain ⟨why, hd⟩ := (exists_decode_eq_illegal_iff w).mpr (.inr (.inr (.inr (.inr ⟨hop, hne⟩))))
  rw [step_command s w q hin, hd, legality_illegal _ _ hp]

/-- Settles O32: the effect in ABSORBING, the faults of the other phases, the illegal word, and the empty message. -/
theorem digest64FinalizesAndAnswers : Obligations.Digest64FinalizesAndAnswers := by
  refine ⟨fun s h => ?_, fun s c h => exec_of_fault _ s c (legality_digest (.inl rfl) h),
    fun s w q hin hp hop hne => step_of_digest_operand hin hp (.inl hop) hne, fun s k0 k1 h => ?_⟩
  · rw [exec_of_absorbing _ h, effect, digest64, finalize_eq]
    rfl
  · refine ⟨_, _, exec_construct_of_ne_faulted k0 k1 h, exec_of_absorbing .digest64 rfl, ?_⟩
    rw [effect, digest64, finalize_construct_lanes]
    rfl

/-- Settles O33, as O32: the two commands differ in what they read from the lanes. -/
theorem digest128FinalizesAndAnswers : Obligations.Digest128FinalizesAndAnswers := by
  refine ⟨fun s h => ?_, fun s c h => exec_of_fault _ s c (legality_digest (.inr rfl) h),
    fun s w q hin hp hop hne => step_of_digest_operand hin hp (.inr hop) hne, fun s k0 k1 h => ?_⟩
  · rw [exec_of_absorbing _ h, effect, digest128, finalize_eq]
    rfl
  · refine ⟨_, _, exec_construct_of_ne_faulted k0 k1 h, exec_of_absorbing .digest128 rfl, ?_⟩
    rw [effect, digest128, finalize_construct_lanes]
    rfl

/-- A digest command leaves the phase FINALIZED (43_finalization_digest.md R165). -/
theorem effect_digest_phase {i : Instr} (hi : i = .digest64 ∨ i = .digest128) (s : State) :
    (effect i s).phase = .finalized := by
  obtain rfl | rfl := hi
  · rfl
  · rfl

/-- Settles O36: what each next command meets in FINALIZED. -/
theorem aDigestIsSingleUse : Obligations.ADigestIsSingleUse := by
  intro i j s t hi hp hexec
  rw [exec_of_absorbing i hp] at hexec
  cases hexec
  have hphase := effect_digest_phase hi s
  refine ⟨hphase, fun hj => ?_, fun bytes hj => ?_, fun k0 k1 hj => ?_⟩
  · exact exec_of_fault j _ _ (legality_digest hj (.inr (.inl ⟨hphase, rfl⟩)))
  · have hfault : legality (effect i s).phase (.command (.absorb bytes)) = some .updateAfterFinalize := by
      rw [hphase]
      rfl
    rw [hj]
    exact exec_of_fault _ _ _ hfault
  · rw [hj]
    exact ⟨_, exec_construct_of_ne_faulted k0 k1 (hphase ▸ nofun), rfl, rfl⟩

end Sys2Proof.Machine
end

section
/-! O38: the one-shot wrappers HASH64 and HASH128 (44_oneshot_wrappers.md R180, R181). -/

namespace Sys2Proof.Machine

theorem length_presentAll (is : List Instr) : (presentAll is).length = is.length := List.length_map _

/-- Every beat of the cut fits one ABSORB (30_encoding.md R74). -/
theorem length_le_of_mem_cutBeats (m : List Byte) : ∀ b ∈ cutBeats m, b.length ≤ 8 := by
  induction m using beatInduction with
  | nil => simp [cutBeats]
  | short m h0 h => simpa [cutBeats_of_lt m h0 h] using h.le
  | word w m h ih =>
    rw [cutBeats_append w m h]
    exact List.forall_mem_cons.mpr ⟨h.le, ih⟩

/-- The session a one-shot wrapper stands for: the key 0 and the canonical beats of UPDATE (44_oneshot_wrappers.md R180,
R181; 30_encoding.md R80). -/
def Session.oneShot (bytes : List Byte) (wide : Bool) : Session where
  k0 := 0
  k1 := 0
  beats := if bytes = [] then [[]] else cutBeats bytes
  wide := wide

theorem Session.oneShot_message (bytes : List Byte) (wide : Bool) : (oneShot bytes wide).message = bytes := by
  unfold message oneShot
  split
  · next h => exact h.symm
  · exact flatten_cutBeats bytes

theorem Session.oneShot_wf (bytes : List Byte) (wide : Bool) : (oneShot bytes wide).wf = true := by
  refine List.all_eq_true.mpr fun b hb => decide_eq_true ?_
  unfold oneShot at hb
  split at hb
  · rw [List.mem_singleton.mp hb]
    exact Nat.zero_le _
  · exact length_le_of_mem_cutBeats bytes b hb

theorem assemble_hash64 (bytes : List Byte) :
    assemble (.hash64 bytes) = presentAll (Session.oneShot bytes false).commands := by
  rw [assemble, expandHash64, expandUpdate_eq]
  rfl

theorem assemble_hash128 (bytes : List Byte) :
    assemble (.hash128 bytes) = presentAll (Session.oneShot bytes true).commands := by
  rw [assemble, expandHash128, expandUpdate_eq]
  rfl

/-- The responses of a session, counted by its commands: DONE to all but the last. -/
theorem Session.responses_eq (c : Config.InitConstants) (u : Session) :
    u.responses c = List.replicate (u.commands.length - 1) .done ++ [u.digest c] := by
  rw [responses, length_commands, Nat.add_sub_cancel, List.replicate_succ, List.map_const']

/-- One session at the port, from any state that is not FAULTED: it answers as `runSteps_session` says and leaves the
block FINALIZED. -/
theorem runSteps_of_inbox_session {u : Session} {s : State} {q : List Event} (hwf : u.wf = true)
    (hf : s.phase ≠ .faulted) (hin : s.inbox = presentAll u.commands ++ q) :
    ∃ t, s.runSteps (presentAll u.commands).length = .next t ∧ t.phase = .finalized ∧ t.inbox = q ∧
      t.responses = s.responses ++ List.replicate ((presentAll u.commands).length - 1) .done ++
        [u.digest s.consts] := by
  have hrun := runSteps_session u s q s.responses hwf hf
  rw [← hin, State.withPort_self] at hrun
  rw [length_presentAll]
  exact ⟨_, hrun, rfl, rfl, by rw [State.withPort_responses, u.responses_eq, List.append_assoc]⟩

/-- A command word in FAULTED only takes its FAULT(5) (60_exceptions.md R204). -/
theorem step_faulted {s : State} (w : CmdWord) (q : List Event) (rs : List Response) (hf : s.phase = .faulted) :
    step (s.withPort (.command w :: q) rs) = .next (s.withPort q (rs ++ [.fault .faulted])) := by
  rw [step_command _ w q rfl, State.withPort_phase, hf, legality_faulted]
  exact congrArg _ (raise_of_faulted (s := s.withPort q rs) .faulted hf)

/-- Any command words in FAULTED only take their FAULT(5) (60_exceptions.md R204). -/
theorem runSteps_faulted (ws : List CmdWord) {s : State} (q : List Event) (rs : List Response)
    (hf : s.phase = .faulted) :
    (s.withPort (ws.map .command ++ q) rs).runSteps ws.length =
      .next (s.withPort q (rs ++ List.replicate ws.length (.fault .faulted))) := by
  induction ws generalizing rs with
  | nil => simp [runSteps_zero]
  | cons w ws ih =>
    rw [List.map_cons, List.cons_append, List.length_cons, runSteps_succ _ (step_faulted w _ rs hf), ih,
      List.replicate_succ, List.append_assoc, List.singleton_append]

/-- Any commands presented in FAULTED only take their FAULT(5). -/
theorem runSteps_presentAll_faulted (is : List Instr) {s : State} {q : List Event} (hf : s.phase = .faulted)
    (hin : s.inbox = presentAll is ++ q) :
    s.runSteps (presentAll is).length = .next { s with
      inbox := q
      responses := s.responses ++ List.replicate (presentAll is).length (.fault .faulted) } := by
  have hwords : presentAll is = (is.map encode).map .command := List.map_map.symm
  have hrun := runSteps_faulted (is.map encode) q s.responses hf
  rw [← hwords, ← hin, State.withPort_self, List.length_map, ← length_presentAll] at hrun
  exact hrun

/-- Settles O38: either wrapper is a session with the key 0, which answers its hash outside FAULTED; in FAULTED each of
its words takes its fault. -/
theorem oneShotWrappersAnswerTheDigest : Obligations.OneShotWrappersAnswerTheDigest := by
  refine fun bytes s q => ⟨fun hf hin => ?_, fun hf hin => ?_, fun l hl hf hin => ?_⟩
  · rw [assemble_hash64] at hin ⊢
    have hrun := runSteps_of_inbox_session (Session.oneShot_wf bytes false) hf hin
    rwa [Session.digest, Session.oneShot_message] at hrun
  · rw [assemble_hash128] at hin ⊢
    have hrun := runSteps_of_inbox_session (Session.oneShot_wf bytes true) hf hin
    rwa [Session.digest, Session.oneShot_message] at hrun
  · obtain rfl | rfl := hl
    · exact runSteps_presentAll_faulted (expandHash64 bytes) hf hin
    · exact runSteps_presentAll_faulted (expandHash128 bytes) hf hin

end Sys2Proof.Machine
end

section
/-! O42, O43: a command word takes the fault of the legality check or has its effect (60_exceptions.md R201, R203). -/

namespace Sys2Proof.Machine

/-- The fault of the legality check is all the step does (60_exceptions.md R203). -/
theorem step_of_fault {s : State} {w : CmdWord} {q : List Event} {c : Cause} (hin : s.inbox = .command w :: q)
    (hl : legality s.phase (decode w) = some c) : step s = .next ((s.withInbox q).raise c) := by
  rw [step_command s w q hin, hl]

/-- A legal command's effect is all the step does. -/
theorem step_of_legal {s : State} {w : CmdWord} {q : List Event} {i : Instr} (hin : s.inbox = .command w :: q)
    (hd : decode w = .command i) (hl : legality s.phase (.command i) = none) :
    step s = .next (effect i (s.withInbox q)) := by
  rw [step_command s w q hin, hd, hl]

/-- The phase and the response of a command's own effect (60_exceptions.md R200). -/
theorem effect_answers {i : Instr} {s : State} {r : Response} (hr : (effect i s).responses = s.responses ++ [r]) :
    match i with
    | .construct _ _ => (effect i s).phase = .absorbing ∧ r = .done
    | .absorb _ => (effect i s).phase = s.phase ∧ r = .done
    | .digest64 => (effect i s).phase = .finalized ∧ ∃ d, r = .digest64 d
    | .digest128 => (effect i s).phase = .finalized ∧ ∃ lo hi, r = .digest128 lo hi := by
  cases i with
  | construct k0 k1 => exact ⟨rfl, by simpa [effect] using hr.symm⟩
  | absorb bytes =>
    obtain ⟨hphase, -⟩ := update_frame bytes s
    exact ⟨hphase, by simpa [effect, absorb_responses] using hr.symm⟩
  | digest64 => exact ⟨rfl, _, by simpa [effect, digest64] using hr.symm⟩
  | digest128 => exact ⟨rfl, _, _, by simpa [effect, digest128] using hr.symm⟩

/-- No command's own effect answers a FAULT. -/
theorem effect_responses_ne_fault (i : Instr) (s : State) (c : Cause) :
    (effect i s).responses ≠ s.responses ++ [.fault c] := by
  intro hr
  have hanswer := effect_answers hr
  cases i with
  | construct k0 k1 => simp at hanswer
  | absorb bytes => simp at hanswer
  | digest64 => simp at hanswer
  | digest128 => simp at hanswer

/-- A step answers a FAULT exactly when the legality check gives its cause. -/
theorem responses_fault_iff {s t : State} {w : CmdWord} {q : List Event} {c : Cause}
    (hin : s.inbox = .command w :: q) (hstep : step s = .next t) :
    t.responses = s.responses ++ [.fault c] ↔ legality s.phase (decode w) = some c := by
  cases hl : legality s.phase (decode w) with
  | some c' =>
    rw [step_of_fault hin hl] at hstep
    cases hstep
    simp
  | none =>
    obtain ⟨i, hd, -⟩ := legality_eq_none _ _ hl
    rw [step_of_legal hin hd (hd ▸ hl)] at hstep
    cases hstep
    simpa using effect_responses_ne_fault i (s.withInbox q) c

/-- Settles O42: the response tells the cause, and the step is the fault of that cause. -/
theorem aFaultWritesOnlyThePhase : Obligations.AFaultWritesOnlyThePhase := by
  intro s t w q c hin hstep hr
  have hl := (responses_fault_iff hin hstep).mp hr
  rw [step_of_fault hin hl] at hstep
  cases hstep
  rfl

/-- When a command faults (60_exceptions.md R201). -/
theorem exists_legality_eq_some_iff (p : Phase) (d : Decoded) : (∃ c, legality p d = some c) ↔
    p = .faulted ∨ (∃ why, d = .illegal why) ∨ (p ≠ .absorbing ∧ ∀ k0 k1, d ≠ .command (.construct k0 k1)) := by
  cases d with
  | illegal why => simp [legality_illegal_eq]
  | command i =>
    cases p with
    | faulted => simp
    | absorbing => simp
    | empty => cases i <;> simp [legality]
    | finalized => cases i <;> simp [legality]

/-- The numbers of the causes, in the order of the tests (60_exceptions.md R201, R202). -/
theorem code_of_legality {p : Phase} {d : Decoded} {c : Cause} (hl : legality p d = some c) :
    (p = .faulted → c.code = 5) ∧
    (p ≠ .faulted → (∃ why, d = .illegal why) → c.code = 4) ∧
    (p = .empty → (∃ i, d = .command i) → c.code = 3) ∧
    (p = .finalized → (∃ bytes, d = .command (.absorb bytes)) → c.code = 1) ∧
    (p = .finalized → (d = .command .digest64 ∨ d = .command .digest128) → c.code = 2) := by
  refine ⟨?_, ?_, ?_, ?_, ?_⟩
  · rintro rfl
    cases hl
    rfl
  · rintro hp ⟨why, rfl⟩
    rw [legality_illegal p why hp] at hl
    cases hl
    rfl
  · rintro rfl ⟨i, rfl⟩
    have hi : ∀ k0 k1, i ≠ .construct k0 k1 := by
      rintro k0 k1 rfl
      cases hl
    rw [legality_empty i hi] at hl
    cases hl
    rfl
  · rintro rfl ⟨bytes, rfl⟩
    cases hl
    rfl
  · rintro rfl hd
    obtain rfl | rfl := hd <;> cases hl <;> rfl

/-- Settles O43: both clauses are facts of the legality check, which decides the response. -/
theorem faultsFollowThePriorityOrder : Obligations.FaultsFollowThePriorityOrder := by
  intro s t w q hin hstep
  simp only [responses_fault_iff hin hstep]
  exact ⟨exists_legality_eq_some_iff s.phase (decode w), fun c => code_of_legality⟩

end Sys2Proof.Machine
end

section
/-! O41: the transition table of the phase (60_exceptions.md R200). -/

namespace Sys2Proof.Machine

/-- In FINALIZED every command but CONSTRUCT and ABSORB is a second digest (60_exceptions.md R201). -/
theorem legality_finalized_of_ne {i : Instr} (hconstruct : ∀ k0 k1, i ≠ .construct k0 k1)
    (habsorb : ∀ bytes, i ≠ .absorb bytes) : legality .finalized (.command i) = some .finalizeTwice := by
  cases i with
  | construct k0 k1 => exact absurd rfl (hconstruct k0 k1)
  | absorb bytes => exact absurd rfl (habsorb bytes)
  | digest64 => rfl
  | digest128 => rfl

/-- A cell whose command faults. -/
theorem cell_of_fault {s t : State} {w : CmdWord} {q : List Event} {r : Response} {c : Cause}
    (hin : s.inbox = .command w :: q) (hstep : step s = .next t) (hr : t.responses = s.responses ++ [r])
    (hl : legality s.phase (decode w) = some c) : t.phase = .faulted ∧ r = .fault c := by
  rw [step_of_fault hin hl] at hstep
  cases hstep
  exact ⟨rfl, by simpa using hr.symm⟩

/-- A cell whose command is legal: the step is the command's effect. -/
theorem eq_effect_of_legal {s t : State} {w : CmdWord} {q : List Event} {i : Instr} (hin : s.inbox = .command w :: q)
    (hstep : step s = .next t) (hd : decode w = .command i) (hl : legality s.phase (.command i) = none) :
    t = effect i (s.withInbox q) :=
  (Host.Outcome.next.inj ((step_of_legal hin hd hl).symm.trans hstep)).symm

/-- Settles O41: row by row of the table, the fault of the legality check or the command's effect. -/
theorem phaseTableIsComplete : Obligations.PhaseTableIsComplete := by
  refine ⟨fun s w q hin => ?_, fun s q hin => ⟨_, step_reset s q hin, rfl⟩⟩
  obtain ⟨t, r, hstep, -, hr⟩ := step_command_answers hin
  have fault {c : Cause} (hl : legality s.phase (decode w) = some c) := cell_of_fault hin hstep hr hl
  have legal {i : Instr} (hd : decode w = .command i) (hl : legality s.phase (.command i) = none) :=
    eq_effect_of_legal hin hstep hd hl
  refine ⟨t, r, hstep, hr, ?_⟩
  split
  · next hp => exact fault (by rw [hp, legality_faulted])
  · next hd hp => exact fault (by rw [hd, legality_illegal _ _ hp])
  · next hd hp =>
    obtain rfl := legal hd (legality_construct _ _ _ hp)
    exact effect_answers hr
  · next hi hp hd => exact fault (by rw [hp, hd, legality_empty _ hi])
  · next hp hd =>
    obtain rfl := legal hd (by rw [hp, legality_absorbing])
    exact hp ▸ effect_answers hr
  · next hp hd =>
    obtain rfl := legal hd (by rw [hp, legality_absorbing])
    exact effect_answers hr
  · next hp hd =>
    obtain rfl := legal hd (by rw [hp, legality_absorbing])
    exact effect_answers hr
  · next hp hd => exact fault (by rw [hp, hd]; rfl)
  · next hconstruct habsorb hp hd =>
    have hl := legality_finalized_of_ne hconstruct habsorb
    exact fault (by rw [hp, hd, hl])

end Sys2Proof.Machine
end

section
/-! O44, O46: FAULTED is left by the reset event alone (60_exceptions.md R204); no step stops (R206). -/

namespace Sys2Proof.Machine

/-- The reset event is the only exit from FAULTED. -/
theorem reset_of_leaves_faulted {s t : State} (hf : s.phase = .faulted) (hstep : step s = .next t)
    (ht : t.phase ≠ .faulted) : ∃ q, s.inbox = .reset :: q ∧ t.phase = .empty := by
  obtain ⟨-, rfl⟩ | ⟨q, hin, rfl⟩ | ⟨w, q, c, -, -, rfl⟩ | ⟨w, q, i, -, -, hl, -⟩ := step_cases hstep
  · exact absurd hf ht
  · exact ⟨q, hin, rfl⟩
  · exact absurd rfl ht
  · rw [hf, legality_faulted] at hl
    cases hl

/-- Settles O44: the run of FAULT(5) that `runSteps_faulted` gives, and the only exit. -/
theorem faultedIsStickyUntilReset : Obligations.FaultedIsStickyUntilReset := by
  refine ⟨fun ws s q hf hin => ?_, fun s t => reset_of_leaves_faulted⟩
  have hrun := runSteps_faulted ws q s.responses hf
  rwa [← hin, State.withPort_self] at hrun

/-- Settles O46; a command is its fault or its effect. -/
theorem everyStepAnswersANextState : Obligations.EveryStepAnswersANextState :=
  ⟨exists_step_eq_next, fun i s => ⟨_, exec_eq i s⟩⟩

end Sys2Proof.Machine
end

section
/-! O48: the reset event (70_reset_and_hazards.md R230). -/

namespace Sys2Proof.Machine

/-- The reset event reads none of the events still to come. -/
@[simp] theorem resetEvent_withInbox (s : State) (q : List Event) :
    (resetEvent s).withInbox q = resetEvent (s.withInbox q) := rfl

/-- After one reset a second one changes nothing that a host can tell: the block is EMPTY, and the lanes, counter and
buffer it draws anew hold no value. -/
theorem resetEvent_indistinguishable_twice (s : State) :
    (resetEvent s).Indistinguishable (resetEvent (resetEvent s)) :=
  indistinguishable_of_not_absorbing rfl rfl rfl rfl nofun

/-- Two reset events presented in a row: the block ends as after the reset of a block already reset. -/
theorem runSteps_reset_reset {s : State} {q : List Event} (hin : s.inbox = .reset :: .reset :: q) :
    s.runSteps 2 = .next (resetEvent (resetEvent (s.withInbox q))) := by
  have hfirst := step_reset s (.reset :: q) hin
  have hsecond := step_reset (resetEvent (s.withInbox (.reset :: q))) q rfl
  rw [runSteps_succ 1 hfirst, runSteps_succ 0 hsecond, runSteps_zero, resetEvent_withInbox]
  rfl

/-- Settles O48: the reset step itself, the only exit from FAULTED (`reset_of_leaves_faulted`), and the second reset
that no host can tell. -/
theorem resetEmptiesTheBlock : Obligations.ResetEmptiesTheBlock := by
  refine ⟨fun s q hin => ⟨_, step_reset s q hin, rfl, rfl, rfl⟩, fun s t hf hstep hne => ?_, ?_⟩
  · by_contra ht
    obtain ⟨q, hin, -⟩ := reset_of_leaves_faulted hf hstep ht
    exact hne q hin
  · rintro s _ q hin rfl
    have honce := runSteps_snoc (runSteps_zero s) (step_reset s q hin)
    exact ⟨_, _, honce, runSteps_reset_reset rfl, resetEvent_indistinguishable_twice (s.withInbox q)⟩

end Sys2Proof.Machine
end

section
/-! O19: the sample words of 95_test_vectors.md section 7 against the decoder's rows (30_encoding.md R75, R76). -/

namespace Sys2Proof

/-- Settles O19: a legal word has the fields of the command it stands for; an illegal one fails its row's condition. -/
theorem sampleWordsDecode : Obligations.SampleWordsDecode := by
  refine ⟨?construct, ?absorb, ?digest64, ?digest128, ?reserved, ?lenAboveEight, ?bNotZero, ?lenNotZero, ?operand⟩
  case construct => exact (decode_eq_command_iff _ _).mpr ⟨rfl, rfl, rfl, rfl⟩
  case absorb => exact (decode_eq_command_iff _ _).mpr ⟨rfl, by decide, rfl, rfl⟩
  case digest64 => exact (decode_eq_command_iff _ _).mpr ⟨rfl, rfl, rfl, rfl⟩
  case digest128 => exact (decode_eq_command_iff _ _).mpr ⟨rfl, rfl, rfl, rfl⟩
  case reserved => exact decode_reserved _ (.inr (by decide))
  case lenAboveEight => rw [decode_op_two _ rfl, if_pos (by decide)]
  case bNotZero => rw [decode_op_two _ rfl, if_neg (by decide), if_neg (by decide)]
  case lenNotZero => rw [decode_op_one _ rfl, if_neg (by decide)]
  case operand => rw [decode_op_three _ rfl, decodeNoOperand, if_neg (by decide)]

end Sys2Proof
end

section
/-! O24: the lanes CONSTRUCT writes with the default constants (42_streaming_hasher.md R130; 95_test_vectors.md
section 4). The values of the constants are PRESUMED (log 1). -/

namespace Sys2Proof.Machine

/-- On a block with the default constants CONSTRUCT leaves the lanes keyed from them. -/
theorem construct_lanes_of_initConstants (k0 k1 : Word) {s : State} (h : s.consts = initConstants) :
    (construct k0 k1 s).lanes = keyedLanes initConstants k0 k1 := by
  rw [construct_lanes, h]

/-- Settles O24: CONSTRUCT is its effect outside FAULTED, and the two keyed lanes are computed. -/
theorem defaultConstantsGiveTheListedLanes : Obligations.DefaultConstantsGiveTheListedLanes := by
  intro s hconsts hphase
  refine ⟨_, _, exec_construct_of_ne_faulted _ _ hphase, ?_, exec_construct_of_ne_faulted _ _ hphase, ?_⟩
  · rw [construct_lanes_of_initConstants _ _ hconsts]
    decide
  · rw [construct_lanes_of_initConstants _ _ hconsts]
    decide

end Sys2Proof.Machine
end
